-- ==== Sys2Proof/Word.lean ====
section
/-! DEFINITION. The word types of the stream_cipher_keystream_manager and their plainest helpers
(00_scope.md section 5: every byte is an unsigned 8-bit value, every quantity is unsigned). -/

namespace Sys2Proof

/-- A byte of buffer memory, of the key, the nonce or a keystream block (00_scope.md section 5). -/
abbrev Byte := BitVec 8

/-- A 32-bit word: an address, a length, an operand word, a response word (00_scope.md R7). -/
abbrev Word := BitVec 32

/-- The command packet `cmd_data[159:0]` (30_encoding.md R70). -/
abbrev Packet := BitVec 160

/-- A byte array of fixed length, `A[j]` for `0 <= j < n` (00_scope.md section 5). -/
abbrev Bytes (n : Nat) := Vector Byte n

/-- `n` zero bytes (10_state.md R36). -/
abbrev Bytes.zero (n : Nat) : Bytes n := Vector.replicate n 0#8

end Sys2Proof
end

