-- ==== Sys2Proof/Syntax.lean ====
section
/-! DEFINITION. The command set SCKM-CMD version 1 (00_scope.md R3, 30_encoding.md R75): the two commands as terms,
and the assembler notation with its pseudo-commands (30_encoding.md R82, R83). -/

namespace Sys2Proof

/-- The two commands of SCKM (00_scope.md R3), one constructor per row of the opcode table. Every operand is the
whole 32-bit word taken as an unsigned number (30_encoding.md R74), and every value of it is legal (R75). -/
inductive Instr where
  /-- `NEW kaddr, klen, naddr, nlen` (30_encoding.md R72). -/
  | new (kaddr klen naddr nlen : Word)
  /-- `APPLY dst, dlen, src, slen` (30_encoding.md R73). -/
  | apply (dst dlen src slen : Word)
  deriving DecidableEq, Repr

/-- A line of the assembler notation: "a mnemonic and four operands in word order" or a pseudo-command
(30_encoding.md R82, R83). Operands are plain numbers here; each must be below 2^32 (WellFormed). -/
inductive Asm where
  | new (kaddr klen naddr nlen : Nat)
  | apply (dst dlen src slen : Nat)
  /-- `XORKS dst, src, len`: the normal equal-length call. -/
  | xorks (dst src len : Nat)
  /-- `XORIP buf, len`: in place. -/
  | xorip (buf len : Nat)
  /-- `NEWK kaddr, naddr`: construction with the only legal lengths. -/
  | newk (kaddr naddr : Nat)
  /-- `NOP`: the zero-length call. -/
  | nop
  deriving DecidableEq, Repr

end Sys2Proof
end

