-- ==== Sys2Proof/WellFormed.lean ====
section
/-! DEFINITION. What makes a term of the syntax well formed. A command (`Instr`) needs no check: its operands are
32-bit words and "no value of `W1` to `W4` makes a packet illegal" (30_encoding.md R75). An assembler line does:
"Operands are unsigned numbers ... each below 2^32" (30_encoding.md R82). -/

namespace Sys2Proof

/-- An assembler operand fits an operand word: it is below 2^32 (30_encoding.md R82). -/
def fitsWord (n : Nat) : Bool := decide (n < 2 ^ 32)

/-- Every operand of the line is below 2^32 (30_encoding.md R82). -/
def Asm.wellFormed : Asm → Bool
  | .new ka kl na nl => fitsWord ka && fitsWord kl && fitsWord na && fitsWord nl
  | .apply d dl s sl => fitsWord d && fitsWord dl && fitsWord s && fitsWord sl
  | .xorks d s l => fitsWord d && fitsWord s && fitsWord l
  | .xorip b l => fitsWord b && fitsWord l
  | .newk ka na => fitsWord ka && fitsWord na
  | .nop => true

end Sys2Proof
end

