-- ==== Sys2Proof/Decode.lean ====
section
/-! DEFINITION. Decoding a 160-bit command packet, and the encoder beside it (30_encoding.md R70 to R77, R81 to R83). -/

namespace Sys2Proof

/-- Operand or header word `W<i>`: bits `[32i+31 : 32i]` of `cmd_data` (30_encoding.md R70). -/
def packetWord (p : Packet) (i : Nat) : Word := p.extractLsb' (32 * i) 32

/-- `OPC = W0[7:0]` (30_encoding.md R71). -/
def packetOpc (p : Packet) : BitVec 8 := (packetWord p 0).extractLsb' 0 8

/-- `RSV = W0[31:8]`, which must be zero (30_encoding.md R71, R77). -/
def packetRsv (p : Packet) : BitVec 24 := (packetWord p 0).extractLsb' 8 24

/-- Why a packet is illegal. -/
inductive Illegal where
  /-- `RSV != 0`, "illegal whatever its `OPC`" (30_encoding.md R77). -/
  | reservedBits
  /-- `RSV = 0` and `OPC` not 0x01 or 0x02 (30_encoding.md R76). -/
  | unusedOpcode
  deriving DecidableEq, Repr

/-- What a packet decodes to: a command, or the reason it is illegal. -/
inductive Decoded where
  | cmd (i : Instr)
  | illegal (r : Illegal)
  deriving DecidableEq, Repr

/-- Decoding "looks at `W0` only" (30_encoding.md R75): reserved bits first (R77), then the opcode (R76). -/
def decode (p : Packet) : Decoded :=
  if packetRsv p ≠ 0#24 then .illegal .reservedBits
  else if packetOpc p = 0x01#8 then
    .cmd (.new (packetWord p 1) (packetWord p 2) (packetWord p 3) (packetWord p 4))
  else if packetOpc p = 0x02#8 then
    .cmd (.apply (packetWord p 1) (packetWord p 2) (packetWord p 3) (packetWord p 4))
  else .illegal .unusedOpcode

/-- The packet with words `W0` to `W4`: `W4 ‖ W3 ‖ W2 ‖ W1 ‖ W0` (30_encoding.md R82). -/
def packetOf (w0 w1 w2 w3 w4 : Word) : Packet := w4 ++ w3 ++ w2 ++ w1 ++ w0

/-- The packet of a command (30_encoding.md R72, R73, R75). -/
def encode : Instr → Packet
  | .new kaddr klen naddr nlen => packetOf 0x00000001#32 kaddr klen naddr nlen
  | .apply dst dlen src slen => packetOf 0x00000002#32 dst dlen src slen

/-- The command a line of the assembler notation stands for (30_encoding.md R82; pseudo-commands R83). -/
def assemble : Asm → Instr
  | .new ka kl na nl => .new (.ofNat 32 ka) (.ofNat 32 kl) (.ofNat 32 na) (.ofNat 32 nl)
  | .apply d dl s sl => .apply (.ofNat 32 d) (.ofNat 32 dl) (.ofNat 32 s) (.ofNat 32 sl)
  | .xorks d s l => .apply (.ofNat 32 d) (.ofNat 32 l) (.ofNat 32 s) (.ofNat 32 l)
  | .xorip b l => .apply (.ofNat 32 b) (.ofNat 32 l) (.ofNat 32 b) (.ofNat 32 l)
  | .newk ka na => .new (.ofNat 32 ka) 32#32 (.ofNat 32 na) 8#32
  | .nop => .apply 0#32 0#32 0#32 0#32

/-- The packet whose low `nbits` bits are `w` and whose other bits are zero, bit 0 the least significant bit of
`cmd_data` (30_encoding.md R70: `W0` is `[31:0]`, `W1` is `[63:32]`, and so on). -/
def tablePacket (nbits w : Nat) : Packet := BitVec.ofNat 160 (w % 2 ^ nbits)

/-- The command the decoder reads from the opcode table's numbering of a packet's bits (spec/opcode_table.json). -/
def decodeTableWord (nbits w : Nat) : Option Instr :=
  match decode (tablePacket nbits w) with
  | .cmd i => some i
  | .illegal _ => none

end Sys2Proof
end

