-- ==== Sys2Proof/Config.lean ====
section
/-! DEFINITION. What is fixed for one SCKM: the document's parameters (00_scope.md R6), the one value the spec
leaves open to a command, the block function (00_scope.md R9; log entry 1), and the choice a data race leaves open
(93_implementation_defined.md U9; log entry 7). -/

namespace Sys2Proof.Config

/-- The type of a block function: `BLOCK_FN : (key: 32 bytes, nonce: 8 bytes, counter: unsigned 64-bit) -> 64 bytes`
(00_scope.md R9). -/
abbrev BlockFn := Bytes 32 → Bytes 8 → BitVec 64 → Bytes 64

/-- `BLOCK_FN`: "an uninterpreted configuration function" of which a model "may assume ... only that its result
depends on its three arguments alone" (00_scope.md R9). It has no body, so nothing can evaluate it. -/
opaque blockFn : BlockFn

/-- Which of the bytes that a location held during the command a racing read returns: the first argument is the number
of the draw, the second the number of the read in that micro-operation. "Each racing read is `any value` among the bytes
the location held during the command ... Never a single fixed value" (93_implementation_defined.md U9; log entry 7). No
body, so nothing can evaluate it. -/
opaque raceChoice : Nat → Nat → Nat

/-- `KEY_BYTES` (00_scope.md R6). -/
abbrev keyBytes : Nat := 32
/-- `NONCE_BYTES` (00_scope.md R6). -/
abbrev nonceBytes : Nat := 8
/-- `BLOCK_BYTES` (00_scope.md R6). -/
abbrev blockBytes : Nat := 64
/-- The last value of the 64-bit `COUNTER`, `2^64 - 1`, at which GEN is refused (40_units_microops.md R91). -/
abbrev counterMax : BitVec 64 := 0xFFFFFFFFFFFFFFFF#64

end Sys2Proof.Config
end

