-- ==== Sys2Proof/Machine/State.lean ====
section
/-! DEFINITION. The state of SCKM as plain data: the six registers of 10_state.md R20 to R26, the transient state of
a command in flight (R27), buffer memory (20_memory.md R50), what the outside does next, and the transfers made on the
ports (10_state.md R39 to R45); why a step can stop; and the state after reset (10_state.md R36, 70_reset R180). -/

namespace Sys2Proof.Machine

/-- `ST`, the instance-status register (10_state.md R26). Its value 3 is unreachable and has no constructor (R32). -/
inductive Status where
  /-- 0: no instance; reset state, no successful NEW yet. -/
  | empty
  /-- 1: a live instance; APPLY is accepted. -/
  | ready
  /-- 2: the instance raised CounterExhausted. -/
  | dead
  deriving DecidableEq, Repr

/-- The outcome of a command, delivered once in the response word (30_encoding.md R79). -/
inductive Result where
  | ok
  | invalidKeyOrNonceSize
  | lengthMismatch
  | counterExhausted
  | illegalCommand
  | noInstance
  deriving DecidableEq, Repr

/-- Where a command in flight stands, between two micro-operations (10_state.md R33, 40_units_microops.md R90). -/
inductive Phase where
  /-- Accepted; the checks come next (41_new.md R111, 42_apply.md R121, R122). -/
  | check
  /-- NEW, its lengths found right: the loads and INIT come next (41_new.md R112, R113; log entry 5). -/
  | construct
  /-- APPLY, at the head of the loop (42_apply.md R123). -/
  | loop
  /-- APPLY, in a run: the read of source byte `CUR + k` comes next (40_units_microops.md R97). -/
  | read (k : Nat)
  /-- APPLY, in a run: the write of destination byte `CUR + k` comes next (40_units_microops.md R97). -/
  | write (k : Nat)
  /-- APPLY, the run done: TAKE comes next (40_units_microops.md R98). -/
  | take
  /-- The command has ended; the word is presented on the response port (30_encoding.md R78). -/
  | respond (word : Word)
  deriving DecidableEq, Repr

/-- The transient state of a command in flight (10_state.md R27): the latched command, the cursor, the run length and
the XOR engine's data byte, with the place in the command. -/
structure Flight where
  /-- The latched opcode and operand words `W1` to `W4`; none for an illegal packet, which has no operands. -/
  cmd : Option Instr
  /-- `CUR`, the number of bytes of this APPLY already processed. -/
  cur : Word
  /-- The run length `n`. -/
  n : Nat
  /-- The one data byte in the XOR engine. -/
  data : Byte
  phase : Phase
  /-- The addresses of the command's buffers that another agent has written while the command is in flight, against
  20_memory.md R62 (the model's own field; log entry 7). -/
  raced : List Word := []
  /-- The bytes that were overwritten in memory while the command is in flight, by their addresses, newest first: what
  those locations held before (the model's own field; log entry 7). -/
  held : List Host.Cell := []
  deriving DecidableEq, Repr

/-- What the outside of SCKM does next (00_scope.md R10: the environment; log entry 4). -/
inductive HostAction where
  /-- Put a packet on the command port and leave its command alone until it has ended: the whole command is one step
  (70_reset_and_hazards.md R186). -/
  | send (p : Packet)
  /-- Put a packet on the command port; once accepted it runs one micro-operation at a time (00_scope.md R10). -/
  | offer (p : Packet)
  /-- Let SCKM make one micro-operation. -/
  | tick
  /-- Take the response from the response port (10_state.md R42). -/
  | take
  /-- Assert RESET (10_state.md R45). -/
  | reset
  /-- The host or another bus master writes a byte of buffer memory (20_memory.md R61, R62). -/
  | write (a : Word) (v : Byte)
  /-- The host or another bus master reads a byte of buffer memory (20_memory.md R61, R62). -/
  | read (a : Word)
  deriving DecidableEq, Repr

/-- One whole transfer on a port (10_state.md R40), or a RESET. -/
inductive Transfer where
  /-- The command port: a packet is accepted (10_state.md R41). -/
  | cmd (p : Packet)
  /-- The response port: the host takes the word (10_state.md R42). -/
  | rsp (word : Word)
  /-- The memory port, `mem_we` low: `mem_addr`, `mem_rdata` (10_state.md R43). -/
  | memRead (a : Word) (v : Byte)
  /-- The memory port, `mem_we` high: `mem_addr`, `mem_wdata` (10_state.md R43). -/
  | memWrite (a : Word) (v : Byte)
  /-- The block-function port: `blk_key`, `blk_nonce`, `blk_ctr`, `blk_data` (10_state.md R44). -/
  | blk (key : BitVec 256) (nonce : BitVec 64) (ctr : BitVec 64) (data : BitVec 512)
  /-- RESET was asserted (10_state.md R45). -/
  | reset
  deriving DecidableEq, Repr

/-- Buffer memory: (address, byte) pairs in one canonical form, addresses strictly rising and no entry equal to what
an unlisted address reads as (20_memory.md R50; Memory.wf in Ops.lean). -/
abbrev Memory := List Host.Cell

/-- The state of the machine. -/
structure State where
  /-- `KEY` (10_state.md R21). -/
  key : Bytes 32
  /-- `NONCE` (10_state.md R22). -/
  nonce : Bytes 8
  /-- `COUNTER` (10_state.md R23). -/
  counter : BitVec 64
  /-- `KSBLOCK` (10_state.md R24). -/
  ksblock : Bytes 64
  /-- `OFFSET`, 7 bits, legal values 0 to 64 (10_state.md R25). -/
  offset : BitVec 7
  /-- `ST` (10_state.md R26). -/
  st : Status
  /-- The command in flight, if any (10_state.md R27). -/
  flight : Option Flight
  /-- Buffer memory (20_memory.md R50). -/
  mem : Memory
  /-- What the outside does next (the model's own field; log entry 4). -/
  host : List HostAction
  /-- The transfers made so far, newest first (the model's own field; log entry 8). -/
  trace : List Transfer
  /-- How many micro-operations have drawn from `Config.raceChoice` (the model's own field; log entry 7). -/
  draws : Nat
  deriving DecidableEq, Repr

/-- Why the machine stops with a fault: there is no such reason. Every error of SCKM is a response word and a next state
(60_exceptions.md R150, R157), and "accesses never fault" (20_memory.md R56). -/
inductive Fault where
  deriving DecidableEq, Repr

/-- Why the machine gives a situation no meaning. -/
inductive Refusal where
  /-- An instruction without a meaning; no arm of `exec` uses it. -/
  | notModelled (mnemonic : String)
  /-- Raised by a meaning or by a micro-operation on registers that no sequence of reset and commands produces:
  `OFFSET` above 64, or `EMPTY` with `COUNTER` or `OFFSET` not at reset (10_state.md R32; 93 U8: "`refuse` a start
  state that has them"). Safe: such a state is never reached (log entry 6). -/
  | unreachableRegisters
  /-- Raised by a meaning that is asked to run a command while another one is in flight, when the command port is not
  ready (10_state.md R41). `step` never asks for it. Safe (log entry 12). -/
  | portNotReady
  /-- Raised by a micro-operation on transient state that no accepted command leads to. Safe: such a state is never
  reached (log entry 6). -/
  | unreachableFlight
  deriving DecidableEq, Repr

/-- Every register at its reset value (10_state.md R36), no command in flight, response port idle, command port ready
(70_reset_and_hazards.md R180). Nothing is listed in memory and the host does nothing (log entries 2, 4, 7, 8, 9). -/
def State.reset : State where
  key := Bytes.zero 32
  nonce := Bytes.zero 8
  counter := 0#64
  ksblock := Bytes.zero 64
  offset := 64#7
  st := .empty
  flight := none
  mem := []
  host := []
  trace := []
  draws := 0

end Sys2Proof.Machine
end

