-- ==== Sys2Proof/Machine/Operands.lean ====
section
/-! DEFINITION. Operand forms: every operand is a whole word (30_encoding.md R74); two operands together name a
buffer (20_memory.md R51, R54). -/

namespace Sys2Proof.Machine

/-- The address of byte `j` of the buffer with base `base`: `(base + j) mod 2^32` (20_memory.md R51, R54). -/
def bufAddr (base : Word) (j : Nat) : Word := base + BitVec.ofNat 32 j

/-- The address is one of the buffer's bytes, `(base + j) mod 2^32` for some `j < len` (20_memory.md R51). -/
def inBuffer (base len a : Word) : Bool := decide ((a - base).toNat < len.toNat)

/-- The command reads its source bytes while it is in flight: the key and nonce of NEW, the source of APPLY
(20_memory.md R62). -/
def cmdReads (i : Instr) (a : Word) : Bool :=
  match i with
  | .new kaddr klen naddr nlen => inBuffer kaddr klen a || inBuffer naddr nlen a
  | .apply _ _ src slen => inBuffer src slen a

/-- The address is a byte of the command's destination buffer (20_memory.md R62; NEW writes no memory, R59). -/
def cmdWrites (i : Instr) (a : Word) : Bool :=
  match i with
  | .new _ _ _ _ => false
  | .apply dst dlen _ _ => inBuffer dst dlen a

/-- How far the destination runs ahead of the source, `d = (DST - SRC) mod 2^32` (20_memory.md R68). -/
def overlapDistance (dst src : Word) : Nat := (dst - src).toNat

/-- No source byte is destroyed before it is read: `d = 0` or `d >= L` (20_memory.md R67, R68). -/
def readsBeforeWrites (dst src len : Word) : Bool :=
  decide (overlapDistance dst src = 0 ∨ len.toNat ≤ overlapDistance dst src)

end Sys2Proof.Machine
end

