-- ==== Sys2Proof/Machine/Flags.lean ====
section
/-! DEFINITION. The conditions the sequencer tests. SCKM has no status flag but `ST` (10_state.md R34); these are
predicates over the registers and the operand words. -/

namespace Sys2Proof.Machine

/-- `BCU.EXHAUSTED = (COUNTER = 0xFFFFFFFFFFFFFFFF)` (40_units_microops.md R91). -/
def State.bcuExhausted (s : State) : Bool := decide (s.counter = Config.counterMax)

/-- `PBB.EXHAUSTED = (OFFSET = 64)` (40_units_microops.md R93), the document's `BlockExhausted` (10_state.md R29). -/
def State.pbbExhausted (s : State) : Bool := decide (s.offset = 64#7)

/-- The length check of NEW: key exactly 32 bytes and nonce exactly 8 (41_new.md R111). -/
def newLengthsValid (klen nlen : Word) : Bool := decide (klen = 32#32 ∧ nlen = 8#32)

/-- The registers are reachable ones: `OFFSET` at most 64, and `EMPTY` only with `COUNTER = 0` and `OFFSET = 64`
(10_state.md R32, 93_implementation_defined.md U8). -/
def State.regsLegal (s : State) : Bool :=
  decide (s.offset.toNat ≤ 64 ∧ (s.st = .empty → s.counter = 0#64 ∧ s.offset = 64#7))

/-- `cmd_ready`: no command is in flight (10_state.md R41). -/
def State.cmdReady (s : State) : Bool := s.flight.isNone

/-- `rsp_valid` with `rsp_data`: the response of a command that has ended and has not been taken (10_state.md R42). -/
def State.rspData (s : State) : Option Word :=
  match s.flight with
  | some f =>
    match f.phase with
    | .respond w => some w
    | _ => none
  | none => none

/-- The 2-bit value of `ST` (10_state.md R26). -/
def Status.value : Status → BitVec 2
  | .empty => 0#2
  | .ready => 1#2
  | .dead => 2#2

/-- The status codes (30_encoding.md R79). -/
def Result.code : Result → BitVec 8
  | .ok => 0x00#8
  | .invalidKeyOrNonceSize => 0x01#8
  | .lengthMismatch => 0x02#8
  | .counterExhausted => 0x03#8
  | .illegalCommand => 0x04#8
  | .noInstance => 0x05#8

/-- The response word: `STATUS` in `[7:0]`, zero in `[31:8]` (30_encoding.md R78). -/
def Result.word (r : Result) : Word := r.code.setWidth 32

end Sys2Proof.Machine
end

