-- ==== Sys2Proof/Machine/Ops.lean ====
section
/-! DEFINITION. The named operations over memory, the ports and the registers: byte accesses, the micro-operations of
40_units_microops.md, acceptance and response of a command, raising an error (60_exceptions.md R157), and reset. -/

namespace Sys2Proof.Machine

/-! ## Buffer memory -/

/-- What an address that nothing has written reads as: 0x00 (log entry 2, DESIGN CHOICE: the spec leaves the contents
of `MEM` to the platform, 00_scope.md R7). -/
def Memory.unlisted : Byte := 0x00#8

/-- The byte at an address; "every read returns a byte" (20_memory.md R56). -/
def Memory.read : Memory → Nat → Byte
  | [], _ => Memory.unlisted
  | (b, v) :: m, a => if a = b then v else Memory.read m a

/-- Put an entry at its place in the rising order, over an older entry of that address. -/
def Memory.insert : Memory → Nat → Byte → Memory
  | [], a, v => [(a, v)]
  | (b, w) :: m, a, v =>
    if a < b then (a, v) :: (b, w) :: m
    else if a = b then (a, v) :: m
    else (b, w) :: Memory.insert m a v

/-- Write one byte; "every write is performed" (20_memory.md R56). Writing what an unlisted address reads as takes the
entry out, so that equal memories are equal lists. -/
def Memory.write (m : Memory) (a : Nat) (v : Byte) : Memory :=
  if v = Memory.unlisted then m.filter (fun c => c.1 ≠ a) else m.insert a v

/-- The canonical form: addresses strictly rising and below 2^32 (20_memory.md R50), no entry equal to what an unlisted
address reads as. -/
abbrev Memory.wf (m : Memory) : Prop :=
  m.Pairwise (fun c d => c.1 < d.1) ∧ ∀ c ∈ m, c.2 ≠ Memory.unlisted ∧ c.1 < 2 ^ 32

/-- The byte at a 32-bit address of the machine's buffer memory. -/
def State.byteAt (s : State) (a : Word) : Byte := s.mem.read a.toNat

/-! ## Ports -/

/-- Record a transfer (log entry 8). -/
def State.log (x : Transfer) (s : State) : State := { s with trace := x :: s.trace }

/-- `MemRead(a, 1)`: one transfer on the memory port (10_state.md R43, 20_memory.md R52). -/
def State.memRead (s : State) (a : Word) : Byte × State := (s.byteAt a, s.log (.memRead a (s.byteAt a)))

/-- `MemWrite(a, 1, v)`: one transfer on the memory port (10_state.md R43, 20_memory.md R52). -/
def State.memWrite (s : State) (a : Word) (v : Byte) : State :=
  { s with mem := s.mem.write a.toNat v }.log (.memWrite a v)

/-- Byte lanes of a wide port: byte `j` of an array in bits `[8j+7 : 8j]` (10_state.md R44). -/
def byteLanes : List Byte → Nat
  | [] => 0
  | b :: bs => b.toNat + 256 * byteLanes bs

/-- A byte array on a bus of `w` bits (10_state.md R44). -/
def onBus (w : Nat) {n : Nat} (v : Bytes n) : BitVec w := BitVec.ofNat w (byteLanes v.toList)

/-! ## block_counter_unit and partial_block_buffer_and_offset_tracker -/

/-- `INIT`: `COUNTER <- 0`, `KSBLOCK` zero, `OFFSET <- 64`; `BLOCK_FN` is not called (40_units_microops.md R99). -/
def State.init (s : State) : State :=
  { s with counter := 0#64, ksblock := Bytes.zero 64, offset := 64#7 }

/-- `BCU.NEXT`: the counter before the increment, and `COUNTER <- COUNTER + 1` (40_units_microops.md R92). -/
def State.bcuNext (s : State) : BitVec 64 × State := (s.counter, { s with counter := s.counter + 1#64 })

/-- `PBB.LOAD(b)`: all 64 bytes replaced, `OFFSET <- 0` (40_units_microops.md R94). -/
def State.pbbLoad (s : State) (b : Bytes 64) : State := { s with ksblock := b, offset := 0#7 }

/-- One transfer on the block-function port: `blk_data = BLOCK_FN(blk_key, blk_nonce, blk_ctr)` (10_state.md R44). -/
def State.blkRequest (B : Config.BlockFn) (s : State) (c : BitVec 64) : Bytes 64 × State :=
  (B s.key s.nonce c,
   s.log (.blk (onBus 256 s.key) (onBus 64 s.nonce) c (onBus 512 (B s.key s.nonce c))))

/-- `GEN` (40_units_microops.md R95): none where `BCU.EXHAUSTED`, and then `CounterExhausted` is raised and nothing
else happens; otherwise block `COUNTER` is asked for, stored, and the counter incremented. -/
def State.gen (B : Config.BlockFn) (s : State) : Option State :=
  if s.bcuExhausted then none
  else
    let (c, s1) := s.bcuNext
    let (b, s2) := s1.blkRequest B c
    some (s2.pbbLoad b)

/-- `PBB.RUNLEN(rem) = min(64 - OFFSET, rem)` (40_units_microops.md R96). -/
def State.runLen (s : State) (rem : Word) : Nat := min (64 - s.offset.toNat) rem.toNat

/-- The register half of `TAKE(n)`: `OFFSET <- OFFSET + n`, 7-bit unsigned (40_units_microops.md R98). -/
def State.takeOffset (s : State) (n : Nat) : State := { s with offset := s.offset + BitVec.ofNat 7 n }

/-- The cursor half of `TAKE(n)`: `CUR <- CUR + n`, 32-bit unsigned (40_units_microops.md R98). -/
def takeCursor (cur : Word) (n : Nat) : Word := cur + BitVec.ofNat 32 n

/-! ## keystream_xor_engine -/

/-- XOR source bytes with the given keystream bytes into the destination: for each, one read and then one write, in
increasing order (40_units_microops.md R97, 20_memory.md R60). `dst` and `src` are the addresses of the first byte;
each next address is one higher, modulo 2^32. -/
def xorBytes : List Byte → (dst src : Word) → State → State
  | [], _, _, s => s
  | ks :: rest, dst, src, s =>
    let (t, s1) := s.memRead src
    xorBytes rest (dst + 1#32) (src + 1#32) (s1.memWrite dst (t ^^^ ks))

/-- `KXE.XORRUN(n)`: the next `n` bytes of the source with `KSBLOCK[OFFSET : OFFSET + n]` (40_units_microops.md R97). -/
def State.xorRun (s : State) (dst src cur : Word) (n : Nat) : State :=
  xorBytes ((s.ksblock.toList.drop s.offset.toNat).take n) (dst + cur) (src + cur) s

/-! ## Acceptance, response, errors, reset -/

/-- A command is accepted: its operand words are latched, `CUR` is 0 (10_state.md R27, R41). -/
def State.accept (s : State) (c : Option Instr) : State :=
  { s with flight := some { cmd := c, cur := 0#32, n := 0, data := 0#8, phase := .check } }

/-- `respond(S)`: the response word is presented on the response port (30_encoding.md R78); the cursor, the run length
and the data byte die here (10_state.md R27), the operand words stay until the host takes the word, because the
buffers they name are SCKM's until then (20_memory.md R62). -/
def State.respond (s : State) (r : Result) : State :=
  { s with flight := s.flight.map fun f =>
      { cmd := f.cmd, cur := 0#32, n := 0, data := 0#8, phase := .respond r.word } }

/-- Raising an error, the one way every error is taken (60_exceptions.md R157): the state change of the error's rule,
which only `CounterExhausted` has (`ST <- DEAD`, R153; on a `DEAD` instance that changes nothing), then the response.
Nothing is saved and control goes nowhere. -/
def State.raise (s : State) (r : Result) : State :=
  match r with
  | .counterExhausted => { s with st := .dead }.respond .counterExhausted
  | e => s.respond e

/-- The return (60_exceptions.md R159): the host takes the response, and SCKM is ready for the next command
(10_state.md R41, R42). -/
def State.takeResponse (s : State) (w : Word) : State := { s with flight := none }.log (.rsp w)

/-- RESET (70_reset_and_hazards.md R180 to R182): the registers take their reset values, a command in flight is
abandoned without a response, buffer memory is not touched. -/
def State.hardReset (s : State) : State :=
  { s with
    key := State.reset.key
    nonce := State.reset.nonce
    counter := State.reset.counter
    ksblock := State.reset.ksblock
    offset := State.reset.offset
    st := State.reset.st
    flight := none }.log .reset

/-- Run a whole command as one step (00_scope.md R10, 70_reset_and_hazards.md R186): accept it, then its body, which
ends with the response presented. Only when the command port is ready (10_state.md R41) and the registers are ones
that can occur (R32). -/
def State.runCommand (s : State) (c : Option Instr) (body : State → State) :
    Host.Outcome State Fault Refusal :=
  if s.flight.isSome then .refused .portNotReady
  else if s.regsLegal then .next (body (s.accept c))
  else .refused .unreachableRegisters

end Sys2Proof.Machine
end

