-- ==== Sys2Proof/Machine/Apply.lean ====
section
/-! DEFINITION. The APPLY command (42_apply.md R120 to R139), over any block function `B`; the machine's own is
`Config.blockFn`. -/

namespace Sys2Proof.Machine

/-- Step a of a pass: a block is generated when the cached one is used up (42_apply.md R123); none where GEN raises
`CounterExhausted`. -/
def State.refill (B : Config.BlockFn) (s : State) : Option State :=
  if s.pbbExhausted then s.gen B else some s

/-- The loop of APPLY over `L = len` bytes from cursor `cur` (42_apply.md R123): while bytes remain, refill, take the
run length, XOR the run, TAKE; then `respond(OK)`. The first argument bounds the passes: "each pass has `n >= 1`, so
the loop ends after at most `L` passes", so a loop that starts with `L` passes and `CUR = 0` never stops for want of
them (Laws: applyLoop_passes). -/
def applyLoop (B : Config.BlockFn) (dst src len : Word) : Nat → Word → State → State
  | 0, _, s => s.respond .ok
  | passes + 1, cur, s =>
    if cur < len then
      match s.refill B with
      | none => s.raise .counterExhausted
      | some s1 =>
        let n := s1.runLen (len - cur)
        applyLoop B dst src len passes (takeCursor cur n) ((s1.xorRun dst src cur n).takeOffset n)
    else s.respond .ok

/-- APPLY from its acceptance to its response: the instance check (42_apply.md R121), the length check (R122), the
loop (R123), in the order of 60_exceptions.md R156. -/
def applyBody (B : Config.BlockFn) (dst dlen src slen : Word) (s : State) : State :=
  match s.st with
  | .empty => s.raise .noInstance
  | .dead => s.raise .counterExhausted
  | .ready =>
    if dlen ≠ slen then s.raise .lengthMismatch
    else applyLoop B dst src slen slen.toNat 0#32 s

/-- APPLY over a given block function. -/
def execApplyWith (B : Config.BlockFn) (dst dlen src slen : Word) (s : State) :
    Host.Outcome State Fault Refusal :=
  s.runCommand (some (.apply dst dlen src slen)) (applyBody B dst dlen src slen)

/-- The meaning of `APPLY dst, dlen, src, slen` (42_apply.md R120). -/
def execApply (dst dlen src slen : Word) (s : State) : Host.Outcome State Fault Refusal :=
  execApplyWith Config.blockFn dst dlen src slen s

end Sys2Proof.Machine
end

