-- ==== Sys2Proof/Machine/New.lean ====
section
/-! DEFINITION. The NEW command (41_new.md R110 to R118). -/

namespace Sys2Proof.Machine

/-- `KEY[j] <- MemRead((KADDR + j) mod 2^32, 1)` (41_new.md R112), read number `j` of NEW. `get` says what a read
returns, by its number and its address. -/
def State.loadKeyByte (get : Nat → Word → Byte) (kaddr : Word) (s : State) (j : Fin 32) : State :=
  let v := get j.val (bufAddr kaddr j.val)
  { s.log (.memRead (bufAddr kaddr j.val) v) with key := s.key.set j v }

/-- `NONCE[j] <- MemRead((NADDR + j) mod 2^32, 1)` (41_new.md R112), read number `32 + j` of NEW. -/
def State.loadNonceByte (get : Nat → Word → Byte) (naddr : Word) (s : State) (j : Fin 8) : State :=
  let v := get (32 + j.val) (bufAddr naddr j.val)
  { s.log (.memRead (bufAddr naddr j.val) v) with nonce := s.nonce.set j v }

/-- The loads and the initialisation, once the lengths are right: the key, then the nonce, each in increasing address
order (41_new.md R112), then `INIT` and `ST <- READY` (R113). -/
def State.constructFrom (s : State) (get : Nat → Word → Byte) (kaddr naddr : Word) : State :=
  let s1 := (List.finRange 32).foldl (State.loadKeyByte get kaddr) s
  let s2 := (List.finRange 8).foldl (State.loadNonceByte get naddr) s1
  { s2.init with st := .ready }

/-- The same with no data race: each read returns the byte in memory (20_memory.md R56), which NEW does not write. -/
def State.construct (s : State) (kaddr naddr : Word) : State :=
  s.constructFrom (fun _ a => s.byteAt a) kaddr naddr

/-- NEW from its acceptance to its response: the length check first (41_new.md R111), then the loads and the
initialisation, then `respond(OK)` (R114). -/
def newBody (kaddr klen naddr nlen : Word) (s : State) : State :=
  if newLengthsValid klen nlen then (s.construct kaddr naddr).respond .ok
  else s.raise .invalidKeyOrNonceSize

/-- The meaning of `NEW kaddr, klen, naddr, nlen` (41_new.md R110). -/
def execNew (kaddr klen naddr nlen : Word) (s : State) : Host.Outcome State Fault Refusal :=
  s.runCommand (some (.new kaddr klen naddr nlen)) (newBody kaddr klen naddr nlen)

end Sys2Proof.Machine
end

