-- ==== Sys2Proof/Machine/Dispatch.lean ====
section
/-! DEFINITION. One arm per command: the meaning of a decoded command (00_scope.md R3). -/

namespace Sys2Proof.Machine

def exec (i : Instr) (s : State) : Host.Outcome State Fault Refusal :=
  match i with
  | .new kaddr klen naddr nlen => Sys2Proof.Machine.execNew kaddr klen naddr nlen s
  | .apply dst dlen src slen => Sys2Proof.Machine.execApply dst dlen src slen s

end Sys2Proof.Machine
end

