-- ==== Sys2Proof/Machine/Micro.lean ====
section
/-! DEFINITION. A command in flight, one micro-operation at a time (00_scope.md R10; 40_units_microops.md R90 to R101),
over any block function `B`. The same checks and operations as the whole-command meanings, in the same order; what is
new is that the outside may act between two of them. The host's own acts stand here too. -/

namespace Sys2Proof.Machine

/-- The command in flight, moved to another place with its cursor, run length and data byte kept. -/
def State.goto (s : State) (f : Flight) (p : Phase) : State := { s with flight := some { f with phase := p } }

/-- After acceptance: decode first (60_exceptions.md R156), then the checks of the command (41_new.md R111,
42_apply.md R121, R122). -/
def microCheck (f : Flight) (s : State) : State :=
  match f.cmd with
  | none => s.raise .illegalCommand
  | some (.new _ klen _ nlen) =>
    if newLengthsValid klen nlen then s.goto f .construct else s.raise .invalidKeyOrNonceSize
  | some (.apply _ dlen _ slen) =>
    match s.st with
    | .empty => s.raise .noInstance
    | .dead => s.raise .counterExhausted
    | .ready => if dlen ≠ slen then s.raise .lengthMismatch else s.goto f .loop

/-- At the head of the loop (42_apply.md R123): the end of the command, or GEN as one indivisible step
(40_units_microops.md R95), or PBB.RUNLEN. -/
def microLoop (B : Config.BlockFn) (f : Flight) (len : Word) (s : State) : State :=
  if f.cur < len then
    if s.pbbExhausted then
      match s.gen B with
      | none => s.raise .counterExhausted
      | some s1 => s1
    else s.goto { f with n := s.runLen (len - f.cur) } (.read 0)
  else s.respond .ok

/-- One of some bytes, by a choice that is any number. -/
def anyOf (now : Byte) (before : List Byte) (choice : Nat) : Byte :=
  (now :: before).getD (choice % (before.length + 1)) now

/-- What read number `k` of a micro-operation returns: the byte in memory (20_memory.md R56), but where another agent
has written the location while the command is in flight, any of the bytes the location held in that time (20_memory.md
R62, 93_implementation_defined.md U9; log entry 7). -/
def State.raceByte (s : State) (f : Flight) (k : Nat) (a : Word) : Byte :=
  if a ∈ f.raced then
    anyOf (s.byteAt a) ((f.held.filter fun c => c.1 = a.toNat).map (·.2)) (Config.raceChoice s.draws k)
  else s.byteAt a

/-- A micro-operation that reads draws anew where the command has met a race. -/
def State.draw (s : State) (f : Flight) : State :=
  { s with draws := if f.raced = [] then s.draws else s.draws + 1 }

/-- The read of source byte `CUR + k` of a run (40_units_microops.md R97). -/
def microRead (f : Flight) (src : Word) (k : Nat) (s : State) : State :=
  let a := src + f.cur + BitVec.ofNat 32 k
  let t := s.raceByte f 0 a
  ((s.log (.memRead a t)).draw f).goto { f with data := t } (.write k)

/-- The write of destination byte `CUR + k` of a run, the data byte XOR `KSBLOCK[OFFSET + k]` (40_units_microops.md
R97), with the byte it overwrites kept for a race (log entry 7); a run that reads past the block cannot occur. -/
def microWrite (f : Flight) (dst : Word) (k : Nat) (s : State) : Host.Outcome State Fault Refusal :=
  if h : s.offset.toNat + k < 64 then
    let a := dst + f.cur + BitVec.ofNat 32 k
    .next ((s.memWrite a (f.data ^^^ s.ksblock[s.offset.toNat + k])).goto
      { f with held := (a.toNat, s.byteAt a) :: f.held } (if k + 1 < f.n then .read (k + 1) else .take))
  else .refused .unreachableFlight

/-- `TAKE(n)` of both units (40_units_microops.md R98). -/
def microTake (f : Flight) (s : State) : State :=
  (s.takeOffset f.n).goto { f with cur := takeCursor f.cur f.n } .loop

/-- The loads and the initialisation of NEW, then `respond(OK)` (41_new.md R112 to R114). -/
def microConstruct (f : Flight) (kaddr naddr : Word) (s : State) : State :=
  ((s.constructFrom (s.raceByte f) kaddr naddr).draw f).respond .ok

/-- A micro-operation of the loop, with the latched `DST`, `SRC` and `SLEN`; only an APPLY has one. -/
def onApply (f : Flight) (run : (dst src len : Word) → Host.Outcome State Fault Refusal) :
    Host.Outcome State Fault Refusal :=
  match f.cmd with
  | none => .refused .unreachableFlight
  | some (.new _ _ _ _) => .refused .unreachableFlight
  | some (.apply dst _ src len) => run dst src len

/-- The construction, with the latched `KADDR` and `NADDR`; only a NEW has one. -/
def onNew (f : Flight) (run : (kaddr naddr : Word) → Host.Outcome State Fault Refusal) :
    Host.Outcome State Fault Refusal :=
  match f.cmd with
  | none => .refused .unreachableFlight
  | some (.new kaddr _ naddr _) => run kaddr naddr
  | some (.apply _ _ _ _) => .refused .unreachableFlight

/-- The micro-operation that comes next in a phase. A command that has ended makes no more: it waits for the host to
take its response (10_state.md R42; log entry 10). -/
def microPhase (B : Config.BlockFn) (f : Flight) (s : State) : Phase → Host.Outcome State Fault Refusal
  | .check => .next (microCheck f s)
  | .construct => onNew f fun kaddr naddr => .next (microConstruct f kaddr naddr s)
  | .loop => onApply f fun _ _ len => .next (microLoop B f len s)
  | .read k => onApply f fun _ src _ => .next (microRead f src k s)
  | .write k => onApply f fun dst _ _ => microWrite f dst k s
  | .take => onApply f fun _ _ _ => .next (microTake f s)
  | .respond _ => .next s

/-- One micro-operation of the command in flight, on registers that can occur (10_state.md R32). -/
def microStep (B : Config.BlockFn) (f : Flight) (s : State) : Host.Outcome State Fault Refusal :=
  if s.regsLegal then microPhase B f s f.phase else .refused .unreachableRegisters

/-- SCKM's own next act: one micro-operation of the command in flight, or nothing (60_exceptions.md R163: "between
commands it idles with its state held"). -/
def advance (B : Config.BlockFn) (s : State) : Host.Outcome State Fault Refusal :=
  match s.flight with
  | none => .next s
  | some f => microStep B f s

/-- An illegal packet as one whole command: answered `IllegalCommand`, nothing else changes (30_encoding.md R76, R77;
60_exceptions.md R154). -/
def execIllegal (s : State) : Host.Outcome State Fault Refusal :=
  s.runCommand none fun t => t.raise .illegalCommand

/-- The command of a packet, none where the packet is illegal. -/
def packetCmd (p : Packet) : Option Instr :=
  match decode p with
  | .cmd i => some i
  | .illegal _ => none

/-- The byte belongs to a buffer of the command in flight, which no other agent may write until the response has been
taken (20_memory.md R62). -/
def State.owns (s : State) (a : Word) : Bool :=
  match s.flight with
  | some { cmd := some i, .. } => cmdReads i a || cmdWrites i a
  | _ => false

/-- Another agent is about to write a byte that the command in flight owns: the location is raced from here on, and the
byte it holds now is one of those it held during the command (93_implementation_defined.md U9; log entry 7). -/
def State.noteRace (s : State) (a : Word) : State :=
  { s with flight := s.flight.map fun f =>
      { f with raced := a :: f.raced, held := (a.toNat, s.byteAt a) :: f.held } }

/-- The host or another bus master writes a byte: "every write is performed" (20_memory.md R56, R61), also the one that
R62 forbids, which makes a data race of it. -/
def hostWrite (a : Word) (v : Byte) (s : State) : State :=
  { (if s.owns a then s.noteRace a else s) with mem := s.mem.write a.toNat v }

/-- The host or another bus master reads a byte: "a read has no side effect" (20_memory.md R56). What a racing read of a
destination byte returns is that agent's, not SCKM's (log entry 7). -/
def hostRead (_a : Word) (s : State) : State := s

end Sys2Proof.Machine
end

