-- ==== Sys2Proof/Machine/Step.lean ====
section
/-! DEFINITION. One step of SCKM and its surroundings: the outside's next act, or SCKM's own when the outside does
nothing (00_scope.md R10; log entry 4). Commands are "pushed to it by the host, one packet at a time" (10_state.md R33). -/

namespace Sys2Proof.Machine

/-- The state in which the acts after the head are still to come. -/
def State.withHost (s : State) (h : List HostAction) : State := { s with host := h }

/-- One step. An act that needs a port waits, and SCKM goes on, while the port is not ready for it (10_state.md R40:
"a transfer happens only when both sides are willing"). -/
def step (s : State) : Host.Outcome State Fault Refusal :=
  match s.host with
  | [] => advance Config.blockFn s
  | .send p :: rest =>
    if s.cmdReady then
      match decode p with
      | .cmd i => exec i ((s.withHost rest).log (.cmd p))
      | .illegal _ => execIllegal ((s.withHost rest).log (.cmd p))
    else advance Config.blockFn s
  | .offer p :: rest =>
    if s.cmdReady then .next (((s.withHost rest).log (.cmd p)).accept (packetCmd p))
    else advance Config.blockFn s
  | .tick :: rest => advance Config.blockFn (s.withHost rest)
  | .take :: rest =>
    match s.rspData with
    | some w => .next ((s.withHost rest).takeResponse w)
    | none => advance Config.blockFn s
  | .reset :: rest => .next (s.withHost rest).hardReset
  | .write a v :: rest => .next (hostWrite a v (s.withHost rest))
  | .read a :: rest => .next (hostRead a (s.withHost rest))

/-- `s` with the packet sent to it next, on a command port that is ready for it (log entry 9): there is no program
counter and nothing is fetched (10_state.md R33, 20_memory.md R65). -/
def State.withFetchWord (s : State) (nbits w : Nat) : State :=
  { s with flight := none, host := .send (tablePacket nbits w) :: s.host }

end Sys2Proof.Machine
end

