-- ==== Sys2Proof/Safety.lean ====
section
/-! DEFINITION. The words in which claims about SCKM are made: the stream position and the keystream (10_state.md R31,
42_apply.md R130), the invariants of 10_state.md R28, R30 and R32, commands one after another, and what a step may be. -/

namespace Sys2Proof.Machine

/-! ## The stream -/

/-- `POS = 64 * COUNTER + OFFSET - 64`, the keystream bytes consumed since NEW (10_state.md R31). -/
def State.pos (s : State) : Nat := 64 * s.counter.toNat + s.offset.toNat - 64

/-- `KS(p) = BLOCK_FN(KEY, NONCE, p div 64)[p mod 64]` (42_apply.md R130). -/
def keystreamByte (B : Config.BlockFn) (key : Bytes 32) (nonce : Bytes 8) (p : Nat) : Byte :=
  (B key nonce (BitVec.ofNat 64 (p / 64)))[p % 64]'(Nat.mod_lt p (by decide))

/-- The keystream of the machine's own block function under the instance's key and nonce. -/
def State.ks (s : State) (p : Nat) : Byte := keystreamByte Config.blockFn s.key s.nonce p

/-- The number of usable keystream bytes of an instance, `64 * (2^64 - 1)` (42_apply.md R131). -/
def streamCapacity : Nat := 64 * (2 ^ 64 - 1)

/-! ## Invariants -/

/-- The cached-block invariant (10_state.md R30). In the reset state its first line holds as well (R36). -/
def State.cachedBlock (B : Config.BlockFn) (s : State) : Prop :=
  (s.counter = 0#64 → s.offset = 64#7 ∧ s.ksblock = Bytes.zero 64) ∧
  (s.counter ≠ 0#64 → s.ksblock = B s.key s.nonce (s.counter - 1#64))

/-- While `ST = EMPTY` every register has its reset value (10_state.md R36: only a successful NEW writes them first). -/
def State.emptyIsReset (s : State) : Prop :=
  s.st = .empty →
    s.key = State.reset.key ∧ s.nonce = State.reset.nonce ∧ s.counter = 0#64 ∧
    s.ksblock = State.reset.ksblock ∧ s.offset = 64#7

/-- A `DEAD` instance stands where `CounterExhausted` left it (60_exceptions.md R153). -/
def State.deadIsExhausted (s : State) : Prop :=
  s.st = .dead → s.counter = Config.counterMax ∧ s.offset = 64#7

/-- An APPLY in flight that is past its checks: equal lengths, a READY instance, `CUR` within the length, and with `m`
bytes still to be taken from the cached block in this run (40_units_microops.md R97, R100). -/
def State.applying (s : State) (f : Flight) (m : Nat) : Prop :=
  ∃ dst src len, f.cmd = some (.apply dst len src len) ∧ s.st = .ready ∧
    s.offset.toNat + m ≤ 64 ∧ f.cur.toNat + m ≤ len.toNat ∧
    (s.offset = 0#7 → f.cur.toNat < len.toNat)

/-- The transient state is one that an accepted command leads to (10_state.md R27). `OFFSET` is 0 only between GEN and
the run that follows it inside a command (42_apply.md R131). -/
def State.flightLegal (s : State) : Prop :=
  match s.flight with
  | none => s.offset ≠ 0#7
  | some f =>
    match f.phase with
    | .check => f.cur = 0#32 ∧ s.offset ≠ 0#7
    | .construct => (∃ kaddr naddr, f.cmd = some (.new kaddr 32#32 naddr 8#32)) ∧ s.offset ≠ 0#7
    | .loop => s.applying f 0
    | .read k => k < f.n ∧ s.applying f f.n
    | .write k => k < f.n ∧ s.applying f f.n
    | .take => 0 < f.n ∧ s.applying f f.n
    | .respond w => (∃ r : Result, w = r.word) ∧ s.offset ≠ 0#7

/-- What holds between any two steps: memory in its canonical form; `0 <= OFFSET <= 64` and the reachable register
values (10_state.md R28, R32); the cached block (R30); an EMPTY block at reset values (R36), a DEAD one exhausted
(60_exceptions.md R153); and transient state that fits the command in flight (R27). -/
def State.inv (s : State) : Prop :=
  s.mem.wf ∧ s.regsLegal = true ∧ s.cachedBlock Config.blockFn ∧ s.emptyIsReset ∧ s.deadIsExhausted ∧
    s.flightLegal

/-- The transfers on the command and response ports alternate, memory and block-function transfers stand only between
a command and its response (10_state.md R41, R42, 20_memory.md R61, 30_encoding.md R80), and a RESET ends a command
without a response (70_reset_and_hazards.md R181): `some true` if they do and a command is in flight after them,
`some false` if they do and none is, newest transfer first. -/
def portsInFlight : List Transfer → Option Bool
  | [] => some false
  | .cmd _ :: r => if portsInFlight r = some false then some true else none
  | .rsp _ :: r => if portsInFlight r = some true then some false else none
  | .reset :: r => if portsInFlight r = none then none else some false
  | .memRead _ _ :: r => if portsInFlight r = some true then some true else none
  | .memWrite _ _ :: r => if portsInFlight r = some true then some true else none
  | .blk _ _ _ _ :: r => if portsInFlight r = some true then some true else none

/-! ## Commands -/

/-- `s` with the command `c` ended, the response `r` presented, and nothing else changed: no register, no byte of
memory, no transfer on the memory or block-function port. -/
def State.ended (s : State) (c : Option Instr) (r : Result) : State :=
  { s with flight := some { cmd := c, cur := 0#32, n := 0, data := 0#8, phase := .respond r.word } }

/-- The response presented is `r`. -/
def State.answered (s : State) (r : Result) : Prop := s.rspData = some r.word

/-- The `n` bytes of a buffer, in index order (20_memory.md R51). -/
def State.bufferBytes (s : State) (base : Word) (n : Nat) : List Byte :=
  (List.range n).map fun j => s.byteAt (bufAddr base j)

/-- The commands one after another, each response taken before the next; none unless each answers OK. -/
def runOk : List Instr → State → Option State
  | [], s => some s
  | i :: is, s =>
    match exec i s with
    | .next t => if t.rspData = some Result.ok.word then runOk is (t.takeResponse Result.ok.word) else none
    | _ => none

/-- A piece of a stream: one APPLY of equal lengths. -/
structure Chunk where
  dst : Word
  src : Word
  len : Word
  deriving DecidableEq, Repr

/-- The APPLY of a chunk. -/
def Chunk.cmd (c : Chunk) : Instr := .apply c.dst c.len c.src c.len

/-- The chunks' commands one after another (42_apply.md R133): the source bytes each met before it ran, the
destination bytes after it, and the end state; none unless each answers OK. -/
def streamChunks : List Chunk → State → Option (List Byte × List Byte × State)
  | [], s => some ([], [], s)
  | c :: cs, s =>
    match runOk [c.cmd] s with
    | none => none
    | some t =>
      match streamChunks cs t with
      | none => none
      | some (input, output, u) =>
        some (s.bufferBytes c.src c.len.toNat ++ input, t.bufferBytes c.dst c.len.toNat ++ output, u)

/-- The same where other agents write memory between the chunks: each is paired with what memory holds when it is sent
(20_memory.md R61). -/
def streamAcross : List (Memory × Chunk) → State → Option (List Byte × List Byte × State)
  | [], s => some ([], [], s)
  | (m, c) :: cs, s =>
    match runOk [c.cmd] { s with mem := m } with
    | none => none
    | some t =>
      match streamAcross cs t with
      | none => none
      | some (input, output, u) =>
        some ({ s with mem := m }.bufferBytes c.src c.len.toNat ++ input,
          t.bufferBytes c.dst c.len.toNat ++ output, u)

/-- Let SCKM alone make `k` micro-operations. -/
def advanceMany (B : Config.BlockFn) : Nat → State → Host.Outcome State Fault Refusal
  | 0, s => .next s
  | k + 1, s =>
    match advance B s with
    | .next t => advanceMany B k t
    | o => o

/-- A bound on the micro-operations of a command (70_reset_and_hazards.md R193): check and construction for NEW; for
APPLY at most five for each byte, the check and the end. -/
def microBound : Instr → Nat
  | .new _ _ _ _ => 2
  | .apply _ _ _ slen => 5 * slen.toNat + 2

/-! ## What a step may be -/

/-- The step is a RESET. -/
def State.resets (s : State) : Prop := ∃ rest, s.host = .reset :: rest

/-- The step is SCKM's own: the host does nothing, lets SCKM go on, or has to wait for a port (log entry 4). -/
def State.ownStep (s : State) : Bool :=
  match s.host with
  | [] => true
  | .send _ :: _ => !s.cmdReady
  | .offer _ :: _ => !s.cmdReady
  | .tick :: _ => true
  | .take :: _ => s.rspData.isNone
  | .reset :: _ => false
  | .write _ _ :: _ => false
  | .read _ :: _ => false

/-- The step runs the construction of a NEW: one with the right lengths is sent whole to a ready port, or the step is
SCKM's own and one in flight stands at its construction. -/
def State.constructs (s : State) : Prop :=
  (∃ p rest kaddr naddr, s.flight = none ∧ s.host = .send p :: rest ∧ decode p = .cmd (.new kaddr 32#32 naddr 8#32)) ∨
  (s.ownStep = true ∧ ∃ f, s.flight = some f ∧ f.phase = .construct)

/-- The transfer's access to memory: whether it writes, and the address. -/
def Transfer.access : Transfer → Option (Bool × Word)
  | .memRead a _ => some (false, a)
  | .memWrite a _ => some (true, a)
  | _ => none

/-- The transfer is a packet accepted on the command port. -/
def Transfer.isCmd : Transfer → Bool
  | .cmd _ => true
  | _ => false

/-- The transfer is a block request. -/
def Transfer.isBlk : Transfer → Bool
  | .blk _ _ _ _ => true
  | _ => false

end Sys2Proof.Machine
end

