-- ==== Sys2Proof/Certificates/Slice0/Obligations.lean ====
section
/-! DEFINITION. The statements for the provers, one definition each. Rules are those of spec/; a clause that rests on a
choice of the model names its log entry. -/

open Sys2Proof Sys2Proof.Machine Host

/-! ## Encoding -/

/-- 30_encoding.md R70 to R73, R75, R82: a packet decodes to a command exactly when it is that command's packet, for
every packet and every command with every operand at every value. -/
def Obligations.DecodesToExactlyTheEncodedCommand : Prop :=
  ∀ (p : Packet) (i : Instr), decode p = .cmd i ↔ p = encode i

/-- 30_encoding.md R75: NEW iff `W0 = 0x00000001`, APPLY iff `W0 = 0x00000002`, with the operand words in word order
(R72, R73); every other value of `W0` is illegal; decoding looks at `W0` only; the all-zero packet is illegal. -/
def Obligations.HeaderWordDecidesTheCommand : Prop :=
  ∀ p : Packet,
    (packetWord p 0 = 0x00000001#32 ↔
      decode p = .cmd (.new (packetWord p 1) (packetWord p 2) (packetWord p 3) (packetWord p 4))) ∧
    (packetWord p 0 = 0x00000002#32 ↔
      decode p = .cmd (.apply (packetWord p 1) (packetWord p 2) (packetWord p 3) (packetWord p 4))) ∧
    ((packetWord p 0 ≠ 0x00000001#32 ∧ packetWord p 0 ≠ 0x00000002#32) ↔ ∃ r, decode p = .illegal r) ∧
    (∀ q : Packet, packetWord q 0 = packetWord p 0 → ((∃ r, decode q = .illegal r) ↔ ∃ r, decode p = .illegal r)) ∧
    (∃ r, decode 0#160 = .illegal r)

/-- Words written out from 30_encoding.md R82 and 95_test_vectors.md C1 decode as those say. -/
def Obligations.WrittenOutPacketsDecode : Prop :=
  decode 0x00000008_00001020_00000020_00001000_00000001#160 =
      .cmd (.new 0x1000#32 32#32 0x1020#32 8#32) ∧
    decode 0x0000001E_00002000_0000001E_00003000_00000002#160 =
      .cmd (.apply 0x3000#32 30#32 0x2000#32 30#32) ∧
    decode 0x00000000_00000000_00000000_00000000_00000002#160 = .cmd (.apply 0#32 0#32 0#32 0#32) ∧
    decode 0x00000004_00002000_00000004_00003000_00000003#160 = .illegal .unusedOpcode ∧
    decode 0x00000008_00001020_00000020_00001000_00000101#160 = .illegal .reservedBits ∧
    decode 0x00000004_00002000_00000004_00003000_80000002#160 = .illegal .reservedBits

/-- 30_encoding.md R83: each pseudo-command is the abbreviation the table gives. -/
def Obligations.PseudoCommandsExpand : Prop :=
  (∀ dst src len, assemble (.xorks dst src len) = assemble (.apply dst len src len)) ∧
    (∀ buf len, assemble (.xorip buf len) = assemble (.apply buf len buf len)) ∧
    (∀ kaddr naddr, assemble (.newk kaddr naddr) = assemble (.new kaddr 32 naddr 8)) ∧
    assemble .nop = assemble (.apply 0 0 0 0)

/-- 30_encoding.md R78, R79: the response word has the status code in its low byte and zero above, and the codes are
those of the table. -/
def Obligations.ResponseWordIsTheStatusCode : Prop :=
  (∀ r : Result, r.word.extractLsb' 0 8 = r.code ∧ r.word.extractLsb' 8 24 = 0#24) ∧
    Result.ok.code = 0x00#8 ∧ Result.invalidKeyOrNonceSize.code = 0x01#8 ∧ Result.lengthMismatch.code = 0x02#8 ∧
    Result.counterExhausted.code = 0x03#8 ∧ Result.illegalCommand.code = 0x04#8 ∧ Result.noInstance.code = 0x05#8

/-! ## The step, the ports, reset -/

/-- A step on a ready command port runs the decoded command: whenever the packet the host sends decodes to `i`, the step
is `exec i` with the packet's transfer recorded and the host's next act taken off its list (log entries 4, 8). -/
def Obligations.StepRunsTheDecodedCommand : Prop :=
  ∀ (s : State) (p : Packet) (rest : List HostAction) (i : Instr),
    s.host = .send p :: rest → s.flight = none → decode p = .cmd i →
      step s = exec i { s with host := rest, trace := .cmd p :: s.trace }

/-- 10_state.md R41, R27, 20_memory.md R65: a packet offered to a ready port is accepted and its command latched, `CUR`
is 0, and nothing of it has run; an illegal packet is accepted too, and SCKM's own next act answers `IllegalCommand`
with nothing else changed (30_encoding.md R76, R77; log entry 4). -/
def Obligations.OfferedPacketIsLatched : Prop :=
  ∀ (s : State) (p : Packet) (rest : List HostAction), s.host = .offer p :: rest → s.flight = none →
    (∀ i, decode p = .cmd i →
      step s = .next { s with
        flight := some { cmd := some i, cur := 0#32, n := 0, data := 0#8, phase := .check }
        host := rest
        trace := .cmd p :: s.trace }) ∧
    (∀ r, decode p = .illegal r → s.regsLegal = true →
      ∃ t, step s = .next t ∧ t.flight.isSome = true ∧
        advance Config.blockFn t =
          .next ({ s with host := rest, trace := .cmd p :: s.trace }.ended none .illegalCommand))

/-- 30_encoding.md R76, R77 and 60_exceptions.md R154: an illegal packet is accepted in every value of `ST`, changes no
register and no memory, makes no memory access and is answered `IllegalCommand`. -/
def Obligations.IllegalPacketIsAnswered : Prop :=
  ∀ (s : State) (p : Packet) (rest : List HostAction),
    s.host = .send p :: rest → s.flight = none → s.regsLegal = true →
    packetWord p 0 ≠ 0x00000001#32 → packetWord p 0 ≠ 0x00000002#32 →
      step s = .next ({ s with host := rest, trace := .cmd p :: s.trace }.ended none .illegalCommand)

/-- 10_state.md R36: every register has its reset value and no command is in flight. -/
def Obligations.ResetValues : Prop :=
  State.reset.key = Vector.replicate 32 0#8 ∧ State.reset.nonce = Vector.replicate 8 0#8 ∧
    State.reset.counter = 0#64 ∧ State.reset.ksblock = Vector.replicate 64 0#8 ∧ State.reset.offset = 64#7 ∧
    State.reset.st = .empty ∧ State.reset.st.value = 0#2 ∧ State.reset.flight = none

/-- 70_reset_and_hazards.md R180, R181, R182: RESET, whatever command is in flight at whatever point, gives every
register its reset value, abandons the command without a response, makes no memory access and touches no byte of
memory (what a command wrote before stays); the command port is ready and the response port idle after it. The
recorded transfers grow by the RESET alone (log entry 8). -/
def Obligations.ResetAbandonsTheCommand : Prop :=
  ∀ (s : State) (rest : List HostAction), s.host = .reset :: rest →
    ∃ t, step s = .next t ∧
      t.key = Vector.replicate 32 0#8 ∧ t.nonce = Vector.replicate 8 0#8 ∧ t.counter = 0#64 ∧
      t.ksblock = Vector.replicate 64 0#8 ∧ t.offset = 64#7 ∧ t.st = .empty ∧
      t.cmdReady = true ∧ t.rspData = none ∧
      t.mem = s.mem ∧ t.host = rest ∧ t.trace = .reset :: s.trace

/-- 10_state.md R41, 70_reset_and_hazards.md R184: while a command is in flight the command port takes no packet. The
packet stays with the host, no command transfer is added, and a command stays in flight. That SCKM goes on with its
command in that step, instead of standing still, is the model's scheduling (log entry 4). -/
def Obligations.BusyPortTakesNoPacket : Prop :=
  ∀ (s : State) (f : Flight) (p : Packet) (rest : List HostAction),
    s.flight = some f → (s.host = .send p :: rest ∨ s.host = .offer p :: rest) →
      step s = advance Config.blockFn s ∧
      ∀ t, step s = .next t → t.host = s.host ∧ t.flight.isSome = true ∧
        t.trace.filter Transfer.isCmd = s.trace.filter Transfer.isCmd

/-- 10_state.md R42, 60_exceptions.md R159: taking the response ends the command, the word is transferred, and the port
is ready for the next command; nothing else changes. -/
def Obligations.TakingTheResponseFreesThePort : Prop :=
  ∀ (s : State) (w : Word) (rest : List HostAction), s.host = .take :: rest → s.rspData = some w →
    ∃ t, step s = .next t ∧ t.cmdReady = true ∧
      t = { s with flight := none, host := rest, trace := .rsp w :: s.trace }

/-- 20_memory.md R56, R61, R62: another agent's write is performed and its read has no effect, whatever is in flight. A
write changes that byte alone, and nothing else where no command is in flight, where the packet in flight is illegal, or
where the byte is in no buffer of the command; where it is in one (the key or nonce of NEW, the destination or source of
APPLY) the race is noted with the command (log entry 7). -/
def Obligations.OtherAgentsAccessIsPerformed : Prop :=
  ∀ (s : State) (a : Word) (v : Byte) (rest : List HostAction),
    (s.host = .read a :: rest → step s = .next { s with host := rest }) ∧
    (s.host = .write a v :: rest →
      ∃ t, step s = .next t ∧ t = { s with host := rest, flight := t.flight, mem := t.mem } ∧
        t.byteAt a = v ∧ (∀ b, b ≠ a → t.byteAt b = s.byteAt b) ∧ (s.mem.wf → t.mem.wf) ∧
        (s.flight = none → t.flight = none) ∧
        (∀ f, s.flight = some f →
          (f.cmd = none → t.flight = some f) ∧
          (∀ kaddr klen naddr nlen, f.cmd = some (.new kaddr klen naddr nlen) →
            t.flight = some (if inBuffer kaddr klen a || inBuffer naddr nlen a then
              { f with raced := a :: f.raced, held := (a.toNat, s.byteAt a) :: f.held } else f)) ∧
          (∀ dst dlen src slen, f.cmd = some (.apply dst dlen src slen) →
            t.flight = some (if inBuffer dst dlen a || inBuffer src slen a then
              { f with raced := a :: f.raced, held := (a.toNat, s.byteAt a) :: f.held } else f))))

/-- 20_memory.md R56, R62, 93_implementation_defined.md U9: what the reads of a command return when they are made one
micro-operation at a time. At a location that no other agent has written in the meantime it is the byte in memory; at one
that has been, it is that byte or one the location held while the command was in flight, and the command goes on. Each
read is recorded with the byte it returned. Which of the bytes a racing read returns is free (log entry 7). -/
def Obligations.RacingReadReturnsAByteHeld : Prop :=
  ∀ (B : Config.BlockFn) (s : State) (f : Flight), s.flight = some f → s.regsLegal = true →
    (∀ dst dlen src slen k, f.cmd = some (.apply dst dlen src slen) → f.phase = .read k →
      ∃ t v, advance B s = .next t ∧
        t = { s with
          flight := some { f with data := v, phase := .write k }
          trace := .memRead (src + f.cur + BitVec.ofNat 32 k) v :: s.trace
          draws := t.draws } ∧
        (src + f.cur + BitVec.ofNat 32 k ∉ f.raced → v = s.byteAt (src + f.cur + BitVec.ofNat 32 k)) ∧
        (v = s.byteAt (src + f.cur + BitVec.ofNat 32 k) ∨ ((src + f.cur + BitVec.ofNat 32 k).toNat, v) ∈ f.held)) ∧
    (∀ kaddr klen naddr nlen, f.cmd = some (.new kaddr klen naddr nlen) → f.phase = .construct →
      ∃ t, advance B s = .next t ∧ t.st = .ready ∧ t.counter = 0#64 ∧ t.offset = 64#7 ∧
        t.ksblock = Vector.replicate 64 0#8 ∧ t.answered .ok ∧ t.mem = s.mem ∧ t.host = s.host ∧
        t.trace.reverse = s.trace.reverse ++
          (List.finRange 32).map (fun j => .memRead (bufAddr kaddr j.val) t.key[j]) ++
          (List.finRange 8).map (fun j => .memRead (bufAddr naddr j.val) t.nonce[j]) ∧
        (∀ j : Fin 32,
          (bufAddr kaddr j.val ∉ f.raced → t.key[j] = s.byteAt (bufAddr kaddr j.val)) ∧
          (t.key[j] = s.byteAt (bufAddr kaddr j.val) ∨ ((bufAddr kaddr j.val).toNat, t.key[j]) ∈ f.held)) ∧
        (∀ j : Fin 8,
          (bufAddr naddr j.val ∉ f.raced → t.nonce[j] = s.byteAt (bufAddr naddr j.val)) ∧
          (t.nonce[j] = s.byteAt (bufAddr naddr j.val) ∨ ((bufAddr naddr j.val).toNat, t.nonce[j]) ∈ f.held)))

/-- 60_exceptions.md R163: between commands SCKM idles with its state held. -/
def Obligations.IdleHoldsTheState : Prop :=
  ∀ s : State, s.host = [] → s.flight = none → step s = .next s

/-! ## Micro-operations -/

/-- 40_units_microops.md R95: GEN raises where `COUNTER = 2^64 - 1`; otherwise the block of the counter before the
increment is stored, the counter incremented and `OFFSET` set to 0, with one block request of that counter (R44) and
no memory access. For every block function. -/
def Obligations.GenStoresTheNextBlock : Prop :=
  ∀ (B : Config.BlockFn) (s : State),
    (s.counter = 0xFFFFFFFFFFFFFFFF#64 → s.gen B = none) ∧
    (s.counter ≠ 0xFFFFFFFFFFFFFFFF#64 →
      s.gen B = some
        { s with
          ksblock := B s.key s.nonce s.counter
          counter := s.counter + 1#64
          offset := 0#7
          trace := .blk (onBus 256 s.key) (onBus 64 s.nonce) s.counter
            (onBus 512 (B s.key s.nonce s.counter)) :: s.trace } ∧
      (s.counter + 1#64).toNat = s.counter.toNat + 1)

/-- 10_state.md R44: byte `j` of a byte array travels in bits `[8j+7 : 8j]` of its bus, for an array of any length. -/
def Obligations.BusLanesCarryTheBytes : Prop :=
  ∀ (n : Nat) (v : Bytes n) (j : Fin n), (onBus (8 * n) v).extractLsb' (8 * j.val) 8 = v[j]

/-- 40_units_microops.md R96, R98: the run length is `min(64 - OFFSET, rem)`, from 1 to 64; taking it leaves `OFFSET` at
most 64, without wrapping. -/
def Obligations.RunLengthFitsTheBlock : Prop :=
  ∀ (s : State) (rem : Word), s.offset.toNat < 64 → 1 ≤ rem.toNat →
    s.runLen rem = min (64 - s.offset.toNat) rem.toNat ∧ 1 ≤ s.runLen rem ∧ s.runLen rem ≤ 64 ∧
    (s.takeOffset (s.runLen rem)).offset.toNat = s.offset.toNat + s.runLen rem ∧
    s.offset.toNat + s.runLen rem ≤ 64

/-- 40_units_microops.md R97: a run of `n + 1` bytes is the run of `n` bytes, then for `k = n` the read of
`SRC + CUR + k` and the write of `DST + CUR + k` with that byte XOR `KSBLOCK[OFFSET + k]`; a run of 0 does nothing. -/
def Obligations.XorRunIsTheByteLoop : Prop :=
  ∀ (s : State) (dst src cur : Word), s.xorRun dst src cur 0 = s ∧
    ∀ (n : Nat) (h : s.offset.toNat + n < 64),
      s.xorRun dst src cur (n + 1) =
        let r := (s.xorRun dst src cur n).memRead (src + cur + BitVec.ofNat 32 n)
        r.2.memWrite (dst + cur + BitVec.ofNat 32 n) (r.1 ^^^ s.ksblock[s.offset.toNat + n])

/-! ## NEW -/

/-- 41_new.md R112, R113: with the right lengths NEW completes from every state whose port is ready: key and nonce are
the bytes of their buffers, read by exactly forty transfers, the key first and each in increasing address order, with
none on the block-function port; the instance is fresh and READY, the response is OK, and memory and the host are as
before. -/
def Obligations.NewConstructsTheInstance : Prop :=
  ∀ (kaddr naddr : Word) (s : State), s.flight = none → s.regsLegal = true →
    ∃ t, exec (.new kaddr 32#32 naddr 8#32) s = .next t ∧
      (∀ j : Fin 32, t.key[j] = s.byteAt (kaddr + BitVec.ofNat 32 j.val)) ∧
      (∀ j : Fin 8, t.nonce[j] = s.byteAt (naddr + BitVec.ofNat 32 j.val)) ∧
      t.trace.reverse = s.trace.reverse ++
        (List.range 32).map (fun j => .memRead (bufAddr kaddr j) (s.byteAt (bufAddr kaddr j))) ++
        (List.range 8).map (fun j => .memRead (bufAddr naddr j) (s.byteAt (bufAddr naddr j))) ∧
      t.counter = 0#64 ∧ t.ksblock = Vector.replicate 64 0#8 ∧ t.offset = 64#7 ∧ t.st = .ready ∧ t.pos = 0 ∧
      t.answered .ok ∧ t.mem = s.mem ∧ t.host = s.host

/-- 41_new.md R111, R116, 60_exceptions.md R151: with any other length NEW answers InvalidKeyOrNonceSize and changes
nothing: no register, no memory, no access. -/
def Obligations.NewRejectsOtherLengths : Prop :=
  ∀ (kaddr klen naddr nlen : Word) (s : State), s.flight = none → s.regsLegal = true →
    ¬(klen.toNat = 32 ∧ nlen.toNat = 8) →
      exec (.new kaddr klen naddr nlen) s =
        .next (s.ended (some (.new kaddr klen naddr nlen)) .invalidKeyOrNonceSize)

/-! ## APPLY: the checks -/

/-- 42_apply.md R121: the instance check comes first, whatever the operands, the equal and the unequal lengths and the
length 0 alike: EMPTY answers NoInstance, DEAD answers CounterExhausted, and nothing else changes. -/
def Obligations.InstanceCheckComesFirst : Prop :=
  ∀ (dst dlen src slen : Word) (s : State), s.flight = none → s.regsLegal = true →
    (s.st = .empty →
      exec (.apply dst dlen src slen) s = .next (s.ended (some (.apply dst dlen src slen)) .noInstance)) ∧
    (s.st = .dead →
      exec (.apply dst dlen src slen) s = .next (s.ended (some (.apply dst dlen src slen)) .counterExhausted))

/-- 42_apply.md R122, 60_exceptions.md R152: on a READY instance unequal lengths answer LengthMismatch and change nothing. -/
def Obligations.UnequalLengthsChangeNothing : Prop :=
  ∀ (dst dlen src slen : Word) (s : State), s.flight = none → s.regsLegal = true → s.st = .ready → dlen ≠ slen →
    exec (.apply dst dlen src slen) s = .next (s.ended (some (.apply dst dlen src slen)) .lengthMismatch)

/-- 42_apply.md R125: the zero-length APPLY on a READY instance answers OK and changes nothing, also where the block or
the counter is exhausted; on EMPTY and DEAD it fails. -/
def Obligations.ZeroLengthApplyChangesNothing : Prop :=
  ∀ (dst src : Word) (s : State), s.flight = none → s.regsLegal = true →
    exec (.apply dst 0#32 src 0#32) s =
      .next (s.ended (some (.apply dst 0#32 src 0#32))
        (match s.st with
          | .ready => .ok
          | .empty => .noInstance
          | .dead => .counterExhausted))

/-! ## APPLY: the stream -/

/-- 42_apply.md R131, R124: an APPLY of length `L` on a READY instance succeeds when `POS + L` is within the usable
stream, with the closed-form end state; KEY, NONCE, ST and the host are as before. -/
def Obligations.ApplyEndState : Prop :=
  ∀ (dst src len : Word) (s : State),
    s.flight = none → s.regsLegal = true → s.st = .ready → s.cachedBlock Config.blockFn →
    s.pos + len.toNat ≤ 64 * (2 ^ 64 - 1) →
    ∃ t, exec (.apply dst len src len) s = .next t ∧ t.answered .ok ∧
      (len.toNat = 0 → t.counter = s.counter ∧ t.offset = s.offset ∧ t.ksblock = s.ksblock) ∧
      (1 ≤ len.toNat →
        t.counter.toNat = (s.pos + len.toNat - 1) / 64 + 1 ∧
        t.offset.toNat = (s.pos + len.toNat - 1) % 64 + 1 ∧
        t.ksblock = Config.blockFn s.key s.nonce (t.counter - 1#64)) ∧
      t.pos = s.pos + len.toNat ∧
      t.key = s.key ∧ t.nonce = s.nonce ∧ t.st = .ready ∧ t.host = s.host

/-- 42_apply.md R130, 20_memory.md R67, R68: where no source byte is overwritten before it is read (disjoint buffers,
exact aliasing, a destination that does not run ahead into the source), byte `i` of the destination is byte `i` of the
source XOR keystream byte `POS + i`. -/
def Obligations.ApplyXorsTheKeystream : Prop :=
  ∀ (dst src len : Word) (s : State),
    s.flight = none → s.regsLegal = true → s.st = .ready → s.cachedBlock Config.blockFn →
    s.pos + len.toNat ≤ 64 * (2 ^ 64 - 1) →
    ((dst - src).toNat = 0 ∨ len.toNat ≤ (dst - src).toNat) →
    ∃ t, exec (.apply dst len src len) s = .next t ∧ t.answered .ok ∧
      ∀ i, i < len.toNat → t.byteAt (bufAddr dst i) = s.byteAt (bufAddr src i) ^^^ s.ks (s.pos + i)

/-- 20_memory.md R67: with disjoint buffers (no address in both) or exactly aliased ones the premise of
ApplyXorsTheKeystream holds. -/
def Obligations.DisjointOrAliasedReadBeforeWritten : Prop :=
  ∀ dst src len : Word,
    (dst = src ∨ ∀ a, ¬(inBuffer dst len a = true ∧ inBuffer src len a = true)) →
      readsBeforeWrites dst src len = true

/-- 20_memory.md R68, R60: with `0 < d < L`, `d = (DST - SRC) mod 2^32`, the byte-serial loop fixes the result: the
first `d` source bytes are the ones before the command, and from then on byte `i` read is output byte `i - d`. -/
def Obligations.OverlapRunsTheSerialLoop : Prop :=
  ∀ (dst src len : Word) (s : State),
    s.flight = none → s.regsLegal = true → s.st = .ready → s.cachedBlock Config.blockFn →
    s.pos + len.toNat ≤ 64 * (2 ^ 64 - 1) →
    0 < (dst - src).toNat → (dst - src).toNat < len.toNat →
    ∃ t, exec (.apply dst len src len) s = .next t ∧ t.answered .ok ∧
      ∀ i, i < len.toNat →
        t.byteAt (bufAddr dst i) =
          (if i < (dst - src).toNat then s.byteAt (bufAddr src i)
            else t.byteAt (bufAddr dst (i - (dst - src).toNat))) ^^^ s.ks (s.pos + i)

/-- 42_apply.md R126, R131, 60_exceptions.md R153, 20_memory.md R59, R60, R68: an APPLY that wants more than the usable
stream has ends with CounterExhausted: the bytes before the end of the stream are written as the byte-serial loop gives
them (R130 where no source byte is overwritten before it is read), the rest of memory is untouched, and the instance is
DEAD at `COUNTER = 2^64 - 1`, `OFFSET = 64` with block `2^64 - 2` still held. Its accesses are those of the bytes
processed, and its block requests those of the blocks up to `2^64 - 2`: none has the counter `2^64 - 1`. -/
def Obligations.ApplyExhaustsTheCounter : Prop :=
  ∀ (dst src len : Word) (s : State),
    s.flight = none → s.regsLegal = true → s.st = .ready → s.cachedBlock Config.blockFn →
    64 * (2 ^ 64 - 1) < s.pos + len.toNat →
    ∃ t done new, exec (.apply dst len src len) s = .next t ∧ t.answered .counterExhausted ∧
      done = 64 * (2 ^ 64 - 1) - s.pos ∧ done < len.toNat ∧
      t.st = .dead ∧ t.counter = 0xFFFFFFFFFFFFFFFF#64 ∧ t.offset = 64#7 ∧
      t.ksblock = Config.blockFn s.key s.nonce 0xFFFFFFFFFFFFFFFE#64 ∧
      t.key = s.key ∧ t.nonce = s.nonce ∧ t.host = s.host ∧
      (∀ i, i < done →
        t.byteAt (bufAddr dst i) =
          (if (dst - src).toNat = 0 ∨ i < (dst - src).toNat then s.byteAt (bufAddr src i)
            else t.byteAt (bufAddr dst (i - (dst - src).toNat))) ^^^ s.ks (s.pos + i)) ∧
      (∀ a, (∀ i, i < done → a ≠ bufAddr dst i) → t.byteAt a = s.byteAt a) ∧
      t.trace.reverse = s.trace.reverse ++ new ∧
      new.filterMap Transfer.access =
        ((List.range done).flatMap fun i => [(false, bufAddr src i), (true, bufAddr dst i)]) ∧
      new.filter Transfer.isBlk =
        (List.range (2 ^ 64 - 1 - s.counter.toNat)).map fun j =>
          .blk (onBus 256 s.key) (onBus 64 s.nonce) (s.counter + BitVec.ofNat 64 j)
            (onBus 512 (Config.blockFn s.key s.nonce (s.counter + BitVec.ofNat 64 j)))

/-- The frame of APPLY (20_memory.md R59, 10_state.md R37), in every value of `ST`, with any lengths, whatever the
response: every byte outside the destination buffer reads as before, KEY, NONCE and the host's list are unchanged; and
where the response is not OK and the instance was not killed by this command, every byte is. -/
def Obligations.ApplyFrame : Prop :=
  ∀ (dst dlen src slen : Word) (s : State), s.flight = none → s.regsLegal = true →
    ∃ t, exec (.apply dst dlen src slen) s = .next t ∧
      t.key = s.key ∧ t.nonce = s.nonce ∧ t.host = s.host ∧
      (∀ a, inBuffer dst dlen a = false → t.byteAt a = s.byteAt a) ∧
      (¬(s.st = .ready ∧ dlen = slen) → t.mem = s.mem)

/-- 20_memory.md R60: a successful APPLY of length `L` makes exactly `2L` memory accesses, in the order read `SRC + i`,
write `DST + i` for `i = 0, 1, ..., L - 1`. -/
def Obligations.ApplyAccessOrder : Prop :=
  ∀ (dst src len : Word) (s : State),
    s.flight = none → s.regsLegal = true → s.st = .ready → s.cachedBlock Config.blockFn →
    s.pos + len.toNat ≤ 64 * (2 ^ 64 - 1) →
    ∃ t new, exec (.apply dst len src len) s = .next t ∧ t.answered .ok ∧
      t.trace.reverse = s.trace.reverse ++ new ∧
      new.filterMap Transfer.access =
        (List.range len.toNat).flatMap fun i => [(false, bufAddr src i), (true, bufAddr dst i)]

/-- 42_apply.md R132, 70_reset_and_hazards.md R193: a successful APPLY asks for exactly the blocks
`c0, c0 + 1, ..., c0 + G - 1` in that order, `G = ceil((P + L) / 64) - c0`, at most `ceil(L / 64)` of them; `G = 0` iff
the call fits in what is left of the cached block. Each request carries KEY and NONCE, each reply the block (R44). -/
def Obligations.ApplyBlockRequests : Prop :=
  ∀ (dst src len : Word) (s : State),
    s.flight = none → s.regsLegal = true → s.st = .ready → s.cachedBlock Config.blockFn →
    s.pos + len.toNat ≤ 64 * (2 ^ 64 - 1) → 1 ≤ len.toNat →
    ∃ t new g, exec (.apply dst len src len) s = .next t ∧ t.answered .ok ∧
      t.trace.reverse = s.trace.reverse ++ new ∧
      g = (s.pos + len.toNat + 63) / 64 - s.counter.toNat ∧ g ≤ (len.toNat + 63) / 64 ∧
      (g = 0 ↔ len.toNat ≤ 64 - s.offset.toNat) ∧
      new.filter Transfer.isBlk =
        (List.range g).map fun j =>
          .blk (onBus 256 s.key) (onBus 64 s.nonce) (s.counter + BitVec.ofNat 64 j)
            (onBus 512 (Config.blockFn s.key s.nonce (s.counter + BitVec.ofNat 64 j)))

/-- 10_state.md R28 item 2, R24: a consumed keystream byte is never used again. Two states that differ at most in bytes
of `KSBLOCK` below `OFFSET` answer an APPLY with the same response, memory, transfers and registers but for those
bytes. -/
def Obligations.ConsumedKeystreamIsNeverUsed : Prop :=
  ∀ (dst dlen src slen : Word) (s : State) (old : Bytes 64), s.flight = none → s.regsLegal = true →
    (∀ j : Fin 64, s.offset.toNat ≤ j.val → old[j] = s.ksblock[j]) →
    ∃ t u, exec (.apply dst dlen src slen) s = .next t ∧
      exec (.apply dst dlen src slen) { s with ksblock := old } = .next u ∧
      u = { t with ksblock := u.ksblock } ∧ (∀ j : Fin 64, t.offset.toNat ≤ j.val → u.ksblock[j] = t.ksblock[j])

/-! ## Guarantees -/

/-- 42_apply.md R133: streaming equivalence. Start two instances with the same six registers; cut one input into
chunks in any two ways, zero-length chunks and chunks over 64 bytes among them, in any buffers that are disjoint or
exactly aliased chunk by chunk (or otherwise read before they are written): if all succeed, the outputs agree byte for
byte and the two end in the same COUNTER, OFFSET and KSBLOCK. Nothing but the responses is taken between the chunks here;
StreamingEquivalenceAcrossWrites lets other agents write between them. -/
def Obligations.StreamingEquivalence : Prop :=
  ∀ (s1 s2 : State) (cs1 cs2 : List Chunk) (input out1 out2 : List Byte) (u1 u2 : State),
    s1.regsLegal = true → s1.st = .ready → s1.cachedBlock Config.blockFn →
    s2.key = s1.key → s2.nonce = s1.nonce → s2.counter = s1.counter → s2.ksblock = s1.ksblock →
    s2.offset = s1.offset → s2.st = s1.st →
    (∀ c ∈ cs1, readsBeforeWrites c.dst c.src c.len = true) →
    (∀ c ∈ cs2, readsBeforeWrites c.dst c.src c.len = true) →
    streamChunks cs1 s1 = some (input, out1, u1) → streamChunks cs2 s2 = some (input, out2, u2) →
      out1 = out2 ∧ u1.counter = u2.counter ∧ u1.offset = u2.offset ∧ u1.ksblock = u2.ksblock

/-- 42_apply.md R133 again, where other agents write memory between the chunks (20_memory.md R61): before each chunk
memory may be anything, and the input is what the source buffer then holds. -/
def Obligations.StreamingEquivalenceAcrossWrites : Prop :=
  ∀ (s1 s2 : State) (cs1 cs2 : List (Memory × Chunk)) (input out1 out2 : List Byte) (u1 u2 : State),
    s1.regsLegal = true → s1.st = .ready → s1.cachedBlock Config.blockFn →
    s2.key = s1.key → s2.nonce = s1.nonce → s2.counter = s1.counter → s2.ksblock = s1.ksblock →
    s2.offset = s1.offset → s2.st = s1.st →
    (∀ c ∈ cs1, readsBeforeWrites c.2.dst c.2.src c.2.len = true) →
    (∀ c ∈ cs2, readsBeforeWrites c.2.dst c.2.src c.2.len = true) →
    streamAcross cs1 s1 = some (input, out1, u1) → streamAcross cs2 s2 = some (input, out2, u2) →
      out1 = out2 ∧ u1.counter = u2.counter ∧ u1.offset = u2.offset ∧ u1.ksblock = u2.ksblock

/-- 42_apply.md R135: involution. NEW, APPLY over a buffer, NEW again with the same key and nonce, APPLY over the
result, gives back the original bytes, provided the first APPLY does not overwrite the key and nonce bytes. -/
def Obligations.ApplyTwiceGivesBackTheSource : Prop :=
  ∀ (kaddr naddr dst1 dst2 src len : Word) (s t : State),
    readsBeforeWrites dst1 src len = true → readsBeforeWrites dst2 dst1 len = true →
    (∀ a, inBuffer dst1 len a = true → inBuffer kaddr 32#32 a = false ∧ inBuffer naddr 8#32 a = false) →
    runOk [.new kaddr 32#32 naddr 8#32, .apply dst1 len src len,
      .new kaddr 32#32 naddr 8#32, .apply dst2 len dst1 len] s = some t →
      ∀ i, i < len.toNat → t.byteAt (bufAddr dst2 i) = s.byteAt (bufAddr src i)

/-- 42_apply.md R134: determinism. The response, the transfers, the destination bytes and the registers of a command are
a function of the registers before it, its words, and the bytes of memory it reads: two states that agree on these
(and may differ in all other memory, in the host's acts and in the transfers before) give the same. -/
def Obligations.CommandsDependOnlyOnWhatTheyRead : Prop :=
  ∀ (i : Instr) (s1 s2 : State), s1.flight = none → s2.flight = none → s1.regsLegal = true →
    s2.key = s1.key → s2.nonce = s1.nonce → s2.counter = s1.counter → s2.ksblock = s1.ksblock →
    s2.offset = s1.offset → s2.st = s1.st →
    (∀ a, cmdReads i a = true → s2.byteAt a = s1.byteAt a) →
    ∃ t1 t2 new, exec i s1 = .next t1 ∧ exec i s2 = .next t2 ∧
      t2.key = t1.key ∧ t2.nonce = t1.nonce ∧ t2.counter = t1.counter ∧ t2.ksblock = t1.ksblock ∧
      t2.offset = t1.offset ∧ t2.st = t1.st ∧ t2.flight = t1.flight ∧
      t1.trace = new ++ s1.trace ∧ t2.trace = new ++ s2.trace ∧
      ∀ a, t2.byteAt a = t1.byteAt a ∨ (t1.byteAt a = s1.byteAt a ∧ t2.byteAt a = s2.byteAt a)

/-- 60_exceptions.md R150, R157, R158: errors are precise. A command whose response is not OK leaves everything as it
was, but for the one CounterExhausted that kills a READY instance. -/
def Obligations.FailedCommandsChangeNothing : Prop :=
  ∀ (i : Instr) (s : State), s.flight = none → s.regsLegal = true →
    ∃ t r, exec i s = .next t ∧ t.answered r ∧
      (r = .ok ∨ t = s.ended (some i) r ∨ (r = .counterExhausted ∧ s.st = .ready ∧ t.st = .dead))

/-- 30_encoding.md R79, R80, 42_apply.md R124, 41_new.md R114: every command ends with one response, and NEW and APPLY
answer only with the statuses that are theirs. -/
def Obligations.EveryCommandIsAnswered : Prop :=
  ∀ (s : State), s.flight = none → s.regsLegal = true →
    (∀ kaddr klen naddr nlen, ∃ t, exec (.new kaddr klen naddr nlen) s = .next t ∧
      (t.answered .ok ∨ t.answered .invalidKeyOrNonceSize)) ∧
    (∀ dst dlen src slen, ∃ t, exec (.apply dst dlen src slen) s = .next t ∧
      (t.answered .ok ∨ t.answered .lengthMismatch ∨ t.answered .counterExhausted ∨ t.answered .noInstance))

/-! ## Whole-machine rules -/

/-- 10_state.md R28, R30, R32 (and R36, 60_exceptions.md R153 for EMPTY and DEAD): every step of the machine, whatever
the host does, keeps the invariants. -/
def Obligations.StepKeepsTheInvariants : Prop :=
  ∀ s t : State, s.inv → step s = .next t → t.inv

/-- The invariants hold right after reset. -/
def Obligations.ResetMeetsTheInvariants : Prop := State.reset.inv

/-- 10_state.md R41, R42, 20_memory.md R61, 30_encoding.md R80: commands and responses alternate strictly, and memory
and block transfers stand only between a command and its response; every step keeps this. -/
def Obligations.StepKeepsPortsAlternating : Prop :=
  ∀ s t : State, portsInFlight s.trace = some s.flight.isSome → step s = .next t →
    portsInFlight t.trace = some t.flight.isSome

/-- 10_state.md R29, R26: `ST` changes only so: to EMPTY by RESET; to READY by a NEW that constructs; from READY to DEAD
by an APPLY that answers CounterExhausted. -/
def Obligations.StatusChangesOnlyByItsEvents : Prop :=
  ∀ s t : State, step s = .next t → t.st ≠ s.st →
    (s.resets ∧ t.st = .empty) ∨ (s.constructs ∧ t.st = .ready ∧ t.answered .ok) ∨
    (s.st = .ready ∧ t.st = .dead ∧ t.answered .counterExhausted)

/-- 10_state.md R23, R28 items 3 and 4: but for RESET and a step that runs the construction of a NEW, no step changes
KEY or NONCE, and none decreases COUNTER. -/
def Obligations.KeyIsImmutableAndCounterMonotonic : Prop :=
  ∀ s t : State, step s = .next t → ¬s.resets → ¬s.constructs →
    t.key = s.key ∧ t.nonce = s.nonce ∧ s.counter.toNat ≤ t.counter.toNat

/-- 00_scope.md R10, 70_reset_and_hazards.md R186, R193: with no other agent touching it, a command run one
micro-operation at a time ends, within the bound, in exactly the state of the whole command as one step. The
cut into micro-operations and the bound are the model's (log entries 3 and 5), and that it ends at all rests on every
memory and block transfer being acknowledged at once, the proviso of R193 (log entry 10, PRESUMED). -/
def Obligations.MicroOperationsMakeTheWholeCommand : Prop :=
  ∀ (i : Instr) (s : State), s.flight = none → s.regsLegal = true →
    ∃ k, k ≤ microBound i ∧ advanceMany Config.blockFn k (s.accept (some i)) = exec i s
end

