-- ==== Sys2Proof/Laws/State.lean ====
section
/-! SUPPORT. One lemma per field per update of State, so that no later proof unfolds a record update. -/

namespace Sys2Proof.Machine

/-! ## log -/

@[simp] theorem State.log_key (x : Transfer) (s : State) :
    (s.log x).key = s.key := rfl
@[simp] theorem State.log_nonce (x : Transfer) (s : State) :
    (s.log x).nonce = s.nonce := rfl
@[simp] theorem State.log_counter (x : Transfer) (s : State) :
    (s.log x).counter = s.counter := rfl
@[simp] theorem State.log_ksblock (x : Transfer) (s : State) :
    (s.log x).ksblock = s.ksblock := rfl
@[simp] theorem State.log_offset (x : Transfer) (s : State) :
    (s.log x).offset = s.offset := rfl
@[simp] theorem State.log_st (x : Transfer) (s : State) :
    (s.log x).st = s.st := rfl
@[simp] theorem State.log_flight (x : Transfer) (s : State) :
    (s.log x).flight = s.flight := rfl
@[simp] theorem State.log_mem (x : Transfer) (s : State) :
    (s.log x).mem = s.mem := rfl
@[simp] theorem State.log_host (x : Transfer) (s : State) :
    (s.log x).host = s.host := rfl
@[simp] theorem State.log_draws (x : Transfer) (s : State) :
    (s.log x).draws = s.draws := rfl
@[simp] theorem State.log_trace (x : Transfer) (s : State) :
    (s.log x).trace = x :: s.trace := rfl

/-! ## memWrite -/

@[simp] theorem State.memWrite_key (s : State) (a : Word) (v : Byte) :
    (s.memWrite a v).key = s.key := rfl
@[simp] theorem State.memWrite_nonce (s : State) (a : Word) (v : Byte) :
    (s.memWrite a v).nonce = s.nonce := rfl
@[simp] theorem State.memWrite_counter (s : State) (a : Word) (v : Byte) :
    (s.memWrite a v).counter = s.counter := rfl
@[simp] theorem State.memWrite_ksblock (s : State) (a : Word) (v : Byte) :
    (s.memWrite a v).ksblock = s.ksblock := rfl
@[simp] theorem State.memWrite_offset (s : State) (a : Word) (v : Byte) :
    (s.memWrite a v).offset = s.offset := rfl
@[simp] theorem State.memWrite_st (s : State) (a : Word) (v : Byte) :
    (s.memWrite a v).st = s.st := rfl
@[simp] theorem State.memWrite_flight (s : State) (a : Word) (v : Byte) :
    (s.memWrite a v).flight = s.flight := rfl
@[simp] theorem State.memWrite_mem (s : State) (a : Word) (v : Byte) :
    (s.memWrite a v).mem = s.mem.write a.toNat v := rfl
@[simp] theorem State.memWrite_host (s : State) (a : Word) (v : Byte) :
    (s.memWrite a v).host = s.host := rfl
@[simp] theorem State.memWrite_draws (s : State) (a : Word) (v : Byte) :
    (s.memWrite a v).draws = s.draws := rfl
@[simp] theorem State.memWrite_trace (s : State) (a : Word) (v : Byte) :
    (s.memWrite a v).trace = .memWrite a v :: s.trace := rfl

/-! ## init -/

@[simp] theorem State.init_key (s : State) :
    s.init.key = s.key := rfl
@[simp] theorem State.init_nonce (s : State) :
    s.init.nonce = s.nonce := rfl
@[simp] theorem State.init_counter (s : State) :
    s.init.counter = 0#64 := rfl
@[simp] theorem State.init_ksblock (s : State) :
    s.init.ksblock = Bytes.zero 64 := rfl
@[simp] theorem State.init_offset (s : State) :
    s.init.offset = 64#7 := rfl
@[simp] theorem State.init_st (s : State) :
    s.init.st = s.st := rfl
@[simp] theorem State.init_flight (s : State) :
    s.init.flight = s.flight := rfl
@[simp] theorem State.init_mem (s : State) :
    s.init.mem = s.mem := rfl
@[simp] theorem State.init_host (s : State) :
    s.init.host = s.host := rfl
@[simp] theorem State.init_draws (s : State) :
    s.init.draws = s.draws := rfl
@[simp] theorem State.init_trace (s : State) :
    s.init.trace = s.trace := rfl

/-! ## pbbLoad -/

@[simp] theorem State.pbbLoad_key (s : State) (b : Bytes 64) :
    (s.pbbLoad b).key = s.key := rfl
@[simp] theorem State.pbbLoad_nonce (s : State) (b : Bytes 64) :
    (s.pbbLoad b).nonce = s.nonce := rfl
@[simp] theorem State.pbbLoad_counter (s : State) (b : Bytes 64) :
    (s.pbbLoad b).counter = s.counter := rfl
@[simp] theorem State.pbbLoad_ksblock (s : State) (b : Bytes 64) :
    (s.pbbLoad b).ksblock = b := rfl
@[simp] theorem State.pbbLoad_offset (s : State) (b : Bytes 64) :
    (s.pbbLoad b).offset = 0#7 := rfl
@[simp] theorem State.pbbLoad_st (s : State) (b : Bytes 64) :
    (s.pbbLoad b).st = s.st := rfl
@[simp] theorem State.pbbLoad_flight (s : State) (b : Bytes 64) :
    (s.pbbLoad b).flight = s.flight := rfl
@[simp] theorem State.pbbLoad_mem (s : State) (b : Bytes 64) :
    (s.pbbLoad b).mem = s.mem := rfl
@[simp] theorem State.pbbLoad_host (s : State) (b : Bytes 64) :
    (s.pbbLoad b).host = s.host := rfl
@[simp] theorem State.pbbLoad_draws (s : State) (b : Bytes 64) :
    (s.pbbLoad b).draws = s.draws := rfl
@[simp] theorem State.pbbLoad_trace (s : State) (b : Bytes 64) :
    (s.pbbLoad b).trace = s.trace := rfl

/-! ## takeOffset -/

@[simp] theorem State.takeOffset_key (s : State) (n : Nat) :
    (s.takeOffset n).key = s.key := rfl
@[simp] theorem State.takeOffset_nonce (s : State) (n : Nat) :
    (s.takeOffset n).nonce = s.nonce := rfl
@[simp] theorem State.takeOffset_counter (s : State) (n : Nat) :
    (s.takeOffset n).counter = s.counter := rfl
@[simp] theorem State.takeOffset_ksblock (s : State) (n : Nat) :
    (s.takeOffset n).ksblock = s.ksblock := rfl
@[simp] theorem State.takeOffset_offset (s : State) (n : Nat) :
    (s.takeOffset n).offset = s.offset + BitVec.ofNat 7 n := rfl
@[simp] theorem State.takeOffset_st (s : State) (n : Nat) :
    (s.takeOffset n).st = s.st := rfl
@[simp] theorem State.takeOffset_flight (s : State) (n : Nat) :
    (s.takeOffset n).flight = s.flight := rfl
@[simp] theorem State.takeOffset_mem (s : State) (n : Nat) :
    (s.takeOffset n).mem = s.mem := rfl
@[simp] theorem State.takeOffset_host (s : State) (n : Nat) :
    (s.takeOffset n).host = s.host := rfl
@[simp] theorem State.takeOffset_draws (s : State) (n : Nat) :
    (s.takeOffset n).draws = s.draws := rfl
@[simp] theorem State.takeOffset_trace (s : State) (n : Nat) :
    (s.takeOffset n).trace = s.trace := rfl

/-! ## accept -/

@[simp] theorem State.accept_key (s : State) (c : Option Instr) :
    (s.accept c).key = s.key := rfl
@[simp] theorem State.accept_nonce (s : State) (c : Option Instr) :
    (s.accept c).nonce = s.nonce := rfl
@[simp] theorem State.accept_counter (s : State) (c : Option Instr) :
    (s.accept c).counter = s.counter := rfl
@[simp] theorem State.accept_ksblock (s : State) (c : Option Instr) :
    (s.accept c).ksblock = s.ksblock := rfl
@[simp] theorem State.accept_offset (s : State) (c : Option Instr) :
    (s.accept c).offset = s.offset := rfl
@[simp] theorem State.accept_st (s : State) (c : Option Instr) :
    (s.accept c).st = s.st := rfl
@[simp] theorem State.accept_flight (s : State) (c : Option Instr) :
    (s.accept c).flight = some { cmd := c, cur := 0#32, n := 0, data := 0#8, phase := .check } := rfl
@[simp] theorem State.accept_mem (s : State) (c : Option Instr) :
    (s.accept c).mem = s.mem := rfl
@[simp] theorem State.accept_host (s : State) (c : Option Instr) :
    (s.accept c).host = s.host := rfl
@[simp] theorem State.accept_draws (s : State) (c : Option Instr) :
    (s.accept c).draws = s.draws := rfl
@[simp] theorem State.accept_trace (s : State) (c : Option Instr) :
    (s.accept c).trace = s.trace := rfl

/-! ## respond -/

@[simp] theorem State.respond_key (s : State) (r : Result) :
    (s.respond r).key = s.key := rfl
@[simp] theorem State.respond_nonce (s : State) (r : Result) :
    (s.respond r).nonce = s.nonce := rfl
@[simp] theorem State.respond_counter (s : State) (r : Result) :
    (s.respond r).counter = s.counter := rfl
@[simp] theorem State.respond_ksblock (s : State) (r : Result) :
    (s.respond r).ksblock = s.ksblock := rfl
@[simp] theorem State.respond_offset (s : State) (r : Result) :
    (s.respond r).offset = s.offset := rfl
@[simp] theorem State.respond_st (s : State) (r : Result) :
    (s.respond r).st = s.st := rfl
@[simp] theorem State.respond_flight (s : State) (r : Result) :
    (s.respond r).flight = s.flight.map fun f =>
      { cmd := f.cmd, cur := 0#32, n := 0, data := 0#8, phase := .respond r.word } := rfl
@[simp] theorem State.respond_mem (s : State) (r : Result) :
    (s.respond r).mem = s.mem := rfl
@[simp] theorem State.respond_host (s : State) (r : Result) :
    (s.respond r).host = s.host := rfl
@[simp] theorem State.respond_draws (s : State) (r : Result) :
    (s.respond r).draws = s.draws := rfl
@[simp] theorem State.respond_trace (s : State) (r : Result) :
    (s.respond r).trace = s.trace := rfl

/-! ## takeResponse -/

@[simp] theorem State.takeResponse_key (s : State) (w : Word) :
    (s.takeResponse w).key = s.key := rfl
@[simp] theorem State.takeResponse_nonce (s : State) (w : Word) :
    (s.takeResponse w).nonce = s.nonce := rfl
@[simp] theorem State.takeResponse_counter (s : State) (w : Word) :
    (s.takeResponse w).counter = s.counter := rfl
@[simp] theorem State.takeResponse_ksblock (s : State) (w : Word) :
    (s.takeResponse w).ksblock = s.ksblock := rfl
@[simp] theorem State.takeResponse_offset (s : State) (w : Word) :
    (s.takeResponse w).offset = s.offset := rfl
@[simp] theorem State.takeResponse_st (s : State) (w : Word) :
    (s.takeResponse w).st = s.st := rfl
@[simp] theorem State.takeResponse_flight (s : State) (w : Word) :
    (s.takeResponse w).flight = none := rfl
@[simp] theorem State.takeResponse_mem (s : State) (w : Word) :
    (s.takeResponse w).mem = s.mem := rfl
@[simp] theorem State.takeResponse_host (s : State) (w : Word) :
    (s.takeResponse w).host = s.host := rfl
@[simp] theorem State.takeResponse_draws (s : State) (w : Word) :
    (s.takeResponse w).draws = s.draws := rfl
@[simp] theorem State.takeResponse_trace (s : State) (w : Word) :
    (s.takeResponse w).trace = .rsp w :: s.trace := rfl

/-! ## hardReset -/

@[simp] theorem State.hardReset_key (s : State) :
    s.hardReset.key = Bytes.zero 32 := rfl
@[simp] theorem State.hardReset_nonce (s : State) :
    s.hardReset.nonce = Bytes.zero 8 := rfl
@[simp] theorem State.hardReset_counter (s : State) :
    s.hardReset.counter = 0#64 := rfl
@[simp] theorem State.hardReset_ksblock (s : State) :
    s.hardReset.ksblock = Bytes.zero 64 := rfl
@[simp] theorem State.hardReset_offset (s : State) :
    s.hardReset.offset = 64#7 := rfl
@[simp] theorem State.hardReset_st (s : State) :
    s.hardReset.st = .empty := rfl
@[simp] theorem State.hardReset_flight (s : State) :
    s.hardReset.flight = none := rfl
@[simp] theorem State.hardReset_mem (s : State) :
    s.hardReset.mem = s.mem := rfl
@[simp] theorem State.hardReset_host (s : State) :
    s.hardReset.host = s.host := rfl
@[simp] theorem State.hardReset_draws (s : State) :
    s.hardReset.draws = s.draws := rfl
@[simp] theorem State.hardReset_trace (s : State) :
    s.hardReset.trace = .reset :: s.trace := rfl

/-! ## goto -/

@[simp] theorem State.goto_key (s : State) (f : Flight) (p : Phase) :
    (s.goto f p).key = s.key := rfl
@[simp] theorem State.goto_nonce (s : State) (f : Flight) (p : Phase) :
    (s.goto f p).nonce = s.nonce := rfl
@[simp] theorem State.goto_counter (s : State) (f : Flight) (p : Phase) :
    (s.goto f p).counter = s.counter := rfl
@[simp] theorem State.goto_ksblock (s : State) (f : Flight) (p : Phase) :
    (s.goto f p).ksblock = s.ksblock := rfl
@[simp] theorem State.goto_offset (s : State) (f : Flight) (p : Phase) :
    (s.goto f p).offset = s.offset := rfl
@[simp] theorem State.goto_st (s : State) (f : Flight) (p : Phase) :
    (s.goto f p).st = s.st := rfl
@[simp] theorem State.goto_flight (s : State) (f : Flight) (p : Phase) :
    (s.goto f p).flight = some { f with phase := p } := rfl
@[simp] theorem State.goto_mem (s : State) (f : Flight) (p : Phase) :
    (s.goto f p).mem = s.mem := rfl
@[simp] theorem State.goto_host (s : State) (f : Flight) (p : Phase) :
    (s.goto f p).host = s.host := rfl
@[simp] theorem State.goto_draws (s : State) (f : Flight) (p : Phase) :
    (s.goto f p).draws = s.draws := rfl
@[simp] theorem State.goto_trace (s : State) (f : Flight) (p : Phase) :
    (s.goto f p).trace = s.trace := rfl

/-! ## withHost -/

@[simp] theorem State.withHost_key (s : State) (h : List HostAction) :
    (s.withHost h).key = s.key := rfl
@[simp] theorem State.withHost_nonce (s : State) (h : List HostAction) :
    (s.withHost h).nonce = s.nonce := rfl
@[simp] theorem State.withHost_counter (s : State) (h : List HostAction) :
    (s.withHost h).counter = s.counter := rfl
@[simp] theorem State.withHost_ksblock (s : State) (h : List HostAction) :
    (s.withHost h).ksblock = s.ksblock := rfl
@[simp] theorem State.withHost_offset (s : State) (h : List HostAction) :
    (s.withHost h).offset = s.offset := rfl
@[simp] theorem State.withHost_st (s : State) (h : List HostAction) :
    (s.withHost h).st = s.st := rfl
@[simp] theorem State.withHost_flight (s : State) (h : List HostAction) :
    (s.withHost h).flight = s.flight := rfl
@[simp] theorem State.withHost_mem (s : State) (h : List HostAction) :
    (s.withHost h).mem = s.mem := rfl
@[simp] theorem State.withHost_host (s : State) (h : List HostAction) :
    (s.withHost h).host = h := rfl
@[simp] theorem State.withHost_draws (s : State) (h : List HostAction) :
    (s.withHost h).draws = s.draws := rfl
@[simp] theorem State.withHost_trace (s : State) (h : List HostAction) :
    (s.withHost h).trace = s.trace := rfl

/-! ## ended -/

@[simp] theorem State.ended_key (s : State) (c : Option Instr) (r : Result) :
    (s.ended c r).key = s.key := rfl
@[simp] theorem State.ended_nonce (s : State) (c : Option Instr) (r : Result) :
    (s.ended c r).nonce = s.nonce := rfl
@[simp] theorem State.ended_counter (s : State) (c : Option Instr) (r : Result) :
    (s.ended c r).counter = s.counter := rfl
@[simp] theorem State.ended_ksblock (s : State) (c : Option Instr) (r : Result) :
    (s.ended c r).ksblock = s.ksblock := rfl
@[simp] theorem State.ended_offset (s : State) (c : Option Instr) (r : Result) :
    (s.ended c r).offset = s.offset := rfl
@[simp] theorem State.ended_st (s : State) (c : Option Instr) (r : Result) :
    (s.ended c r).st = s.st := rfl
@[simp] theorem State.ended_flight (s : State) (c : Option Instr) (r : Result) :
    (s.ended c r).flight = some { cmd := c, cur := 0#32, n := 0, data := 0#8, phase := .respond r.word } := rfl
@[simp] theorem State.ended_mem (s : State) (c : Option Instr) (r : Result) :
    (s.ended c r).mem = s.mem := rfl
@[simp] theorem State.ended_host (s : State) (c : Option Instr) (r : Result) :
    (s.ended c r).host = s.host := rfl
@[simp] theorem State.ended_draws (s : State) (c : Option Instr) (r : Result) :
    (s.ended c r).draws = s.draws := rfl
@[simp] theorem State.ended_trace (s : State) (c : Option Instr) (r : Result) :
    (s.ended c r).trace = s.trace := rfl

/-! ## bcuNext_snd -/

@[simp] theorem State.bcuNext_snd_key (s : State) :
    s.bcuNext.2.key = s.key := rfl
@[simp] theorem State.bcuNext_snd_nonce (s : State) :
    s.bcuNext.2.nonce = s.nonce := rfl
@[simp] theorem State.bcuNext_snd_counter (s : State) :
    s.bcuNext.2.counter = s.counter + 1#64 := rfl
@[simp] theorem State.bcuNext_snd_ksblock (s : State) :
    s.bcuNext.2.ksblock = s.ksblock := rfl
@[simp] theorem State.bcuNext_snd_offset (s : State) :
    s.bcuNext.2.offset = s.offset := rfl
@[simp] theorem State.bcuNext_snd_st (s : State) :
    s.bcuNext.2.st = s.st := rfl
@[simp] theorem State.bcuNext_snd_flight (s : State) :
    s.bcuNext.2.flight = s.flight := rfl
@[simp] theorem State.bcuNext_snd_mem (s : State) :
    s.bcuNext.2.mem = s.mem := rfl
@[simp] theorem State.bcuNext_snd_host (s : State) :
    s.bcuNext.2.host = s.host := rfl
@[simp] theorem State.bcuNext_snd_draws (s : State) :
    s.bcuNext.2.draws = s.draws := rfl
@[simp] theorem State.bcuNext_snd_trace (s : State) :
    s.bcuNext.2.trace = s.trace := rfl

/-! ## memRead_snd -/

@[simp] theorem State.memRead_snd_key (s : State) (a : Word) :
    (s.memRead a).2.key = s.key := rfl
@[simp] theorem State.memRead_snd_nonce (s : State) (a : Word) :
    (s.memRead a).2.nonce = s.nonce := rfl
@[simp] theorem State.memRead_snd_counter (s : State) (a : Word) :
    (s.memRead a).2.counter = s.counter := rfl
@[simp] theorem State.memRead_snd_ksblock (s : State) (a : Word) :
    (s.memRead a).2.ksblock = s.ksblock := rfl
@[simp] theorem State.memRead_snd_offset (s : State) (a : Word) :
    (s.memRead a).2.offset = s.offset := rfl
@[simp] theorem State.memRead_snd_st (s : State) (a : Word) :
    (s.memRead a).2.st = s.st := rfl
@[simp] theorem State.memRead_snd_flight (s : State) (a : Word) :
    (s.memRead a).2.flight = s.flight := rfl
@[simp] theorem State.memRead_snd_mem (s : State) (a : Word) :
    (s.memRead a).2.mem = s.mem := rfl
@[simp] theorem State.memRead_snd_host (s : State) (a : Word) :
    (s.memRead a).2.host = s.host := rfl
@[simp] theorem State.memRead_snd_draws (s : State) (a : Word) :
    (s.memRead a).2.draws = s.draws := rfl
@[simp] theorem State.memRead_snd_trace (s : State) (a : Word) :
    (s.memRead a).2.trace = .memRead a (s.byteAt a) :: s.trace := rfl

/-! ## loadKeyByte -/

@[simp] theorem State.loadKeyByte_key (get : Nat → Word → Byte) (kaddr : Word) (s : State) (j : Fin 32) :
    (State.loadKeyByte get kaddr s j).key = s.key.set j (get j.val (bufAddr kaddr j.val)) := rfl
@[simp] theorem State.loadKeyByte_nonce (get : Nat → Word → Byte) (kaddr : Word) (s : State) (j : Fin 32) :
    (State.loadKeyByte get kaddr s j).nonce = s.nonce := rfl
@[simp] theorem State.loadKeyByte_counter (get : Nat → Word → Byte) (kaddr : Word) (s : State) (j : Fin 32) :
    (State.loadKeyByte get kaddr s j).counter = s.counter := rfl
@[simp] theorem State.loadKeyByte_ksblock (get : Nat → Word → Byte) (kaddr : Word) (s : State) (j : Fin 32) :
    (State.loadKeyByte get kaddr s j).ksblock = s.ksblock := rfl
@[simp] theorem State.loadKeyByte_offset (get : Nat → Word → Byte) (kaddr : Word) (s : State) (j : Fin 32) :
    (State.loadKeyByte get kaddr s j).offset = s.offset := rfl
@[simp] theorem State.loadKeyByte_st (get : Nat → Word → Byte) (kaddr : Word) (s : State) (j : Fin 32) :
    (State.loadKeyByte get kaddr s j).st = s.st := rfl
@[simp] theorem State.loadKeyByte_flight (get : Nat → Word → Byte) (kaddr : Word) (s : State) (j : Fin 32) :
    (State.loadKeyByte get kaddr s j).flight = s.flight := rfl
@[simp] theorem State.loadKeyByte_mem (get : Nat → Word → Byte) (kaddr : Word) (s : State) (j : Fin 32) :
    (State.loadKeyByte get kaddr s j).mem = s.mem := rfl
@[simp] theorem State.loadKeyByte_host (get : Nat → Word → Byte) (kaddr : Word) (s : State) (j : Fin 32) :
    (State.loadKeyByte get kaddr s j).host = s.host := rfl
@[simp] theorem State.loadKeyByte_draws (get : Nat → Word → Byte) (kaddr : Word) (s : State) (j : Fin 32) :
    (State.loadKeyByte get kaddr s j).draws = s.draws := rfl
@[simp] theorem State.loadKeyByte_trace (get : Nat → Word → Byte) (kaddr : Word) (s : State) (j : Fin 32) :
    (State.loadKeyByte get kaddr s j).trace = .memRead (bufAddr kaddr j.val) (get j.val (bufAddr kaddr j.val)) :: s.trace := rfl

/-! ## loadNonceByte -/

@[simp] theorem State.loadNonceByte_key (get : Nat → Word → Byte) (naddr : Word) (s : State) (j : Fin 8) :
    (State.loadNonceByte get naddr s j).key = s.key := rfl
@[simp] theorem State.loadNonceByte_nonce (get : Nat → Word → Byte) (naddr : Word) (s : State) (j : Fin 8) :
    (State.loadNonceByte get naddr s j).nonce = s.nonce.set j (get (32 + j.val) (bufAddr naddr j.val)) := rfl
@[simp] theorem State.loadNonceByte_counter (get : Nat → Word → Byte) (naddr : Word) (s : State) (j : Fin 8) :
    (State.loadNonceByte get naddr s j).counter = s.counter := rfl
@[simp] theorem State.loadNonceByte_ksblock (get : Nat → Word → Byte) (naddr : Word) (s : State) (j : Fin 8) :
    (State.loadNonceByte get naddr s j).ksblock = s.ksblock := rfl
@[simp] theorem State.loadNonceByte_offset (get : Nat → Word → Byte) (naddr : Word) (s : State) (j : Fin 8) :
    (State.loadNonceByte get naddr s j).offset = s.offset := rfl
@[simp] theorem State.loadNonceByte_st (get : Nat → Word → Byte) (naddr : Word) (s : State) (j : Fin 8) :
    (State.loadNonceByte get naddr s j).st = s.st := rfl
@[simp] theorem State.loadNonceByte_flight (get : Nat → Word → Byte) (naddr : Word) (s : State) (j : Fin 8) :
    (State.loadNonceByte get naddr s j).flight = s.flight := rfl
@[simp] theorem State.loadNonceByte_mem (get : Nat → Word → Byte) (naddr : Word) (s : State) (j : Fin 8) :
    (State.loadNonceByte get naddr s j).mem = s.mem := rfl
@[simp] theorem State.loadNonceByte_host (get : Nat → Word → Byte) (naddr : Word) (s : State) (j : Fin 8) :
    (State.loadNonceByte get naddr s j).host = s.host := rfl
@[simp] theorem State.loadNonceByte_draws (get : Nat → Word → Byte) (naddr : Word) (s : State) (j : Fin 8) :
    (State.loadNonceByte get naddr s j).draws = s.draws := rfl
@[simp] theorem State.loadNonceByte_trace (get : Nat → Word → Byte) (naddr : Word) (s : State) (j : Fin 8) :
    (State.loadNonceByte get naddr s j).trace = .memRead (bufAddr naddr j.val) (get (32 + j.val) (bufAddr naddr j.val)) :: s.trace := rfl

/-! ## draw -/

@[simp] theorem State.draw_key (s : State) (f : Flight) :
    (s.draw f).key = s.key := rfl
@[simp] theorem State.draw_nonce (s : State) (f : Flight) :
    (s.draw f).nonce = s.nonce := rfl
@[simp] theorem State.draw_counter (s : State) (f : Flight) :
    (s.draw f).counter = s.counter := rfl
@[simp] theorem State.draw_ksblock (s : State) (f : Flight) :
    (s.draw f).ksblock = s.ksblock := rfl
@[simp] theorem State.draw_offset (s : State) (f : Flight) :
    (s.draw f).offset = s.offset := rfl
@[simp] theorem State.draw_st (s : State) (f : Flight) :
    (s.draw f).st = s.st := rfl
@[simp] theorem State.draw_mem (s : State) (f : Flight) :
    (s.draw f).mem = s.mem := rfl
@[simp] theorem State.draw_host (s : State) (f : Flight) :
    (s.draw f).host = s.host := rfl
@[simp] theorem State.draw_flight (s : State) (f : Flight) :
    (s.draw f).flight = s.flight := rfl
@[simp] theorem State.draw_trace (s : State) (f : Flight) :
    (s.draw f).trace = s.trace := rfl

/-! ## hostWrite -/

@[simp] theorem hostWrite_key (a : Word) (v : Byte) (s : State) :
    (hostWrite a v s).key = s.key := by unfold hostWrite; split <;> rfl
@[simp] theorem hostWrite_nonce (a : Word) (v : Byte) (s : State) :
    (hostWrite a v s).nonce = s.nonce := by unfold hostWrite; split <;> rfl
@[simp] theorem hostWrite_counter (a : Word) (v : Byte) (s : State) :
    (hostWrite a v s).counter = s.counter := by unfold hostWrite; split <;> rfl
@[simp] theorem hostWrite_ksblock (a : Word) (v : Byte) (s : State) :
    (hostWrite a v s).ksblock = s.ksblock := by unfold hostWrite; split <;> rfl
@[simp] theorem hostWrite_offset (a : Word) (v : Byte) (s : State) :
    (hostWrite a v s).offset = s.offset := by unfold hostWrite; split <;> rfl
@[simp] theorem hostWrite_st (a : Word) (v : Byte) (s : State) :
    (hostWrite a v s).st = s.st := by unfold hostWrite; split <;> rfl
@[simp] theorem hostWrite_mem (a : Word) (v : Byte) (s : State) :
    (hostWrite a v s).mem = s.mem.write a.toNat v := by unfold hostWrite; split <;> rfl
@[simp] theorem hostWrite_host (a : Word) (v : Byte) (s : State) :
    (hostWrite a v s).host = s.host := by unfold hostWrite; split <;> rfl
@[simp] theorem hostWrite_trace (a : Word) (v : Byte) (s : State) :
    (hostWrite a v s).trace = s.trace := by unfold hostWrite; split <;> rfl
@[simp] theorem hostWrite_draws (a : Word) (v : Byte) (s : State) :
    (hostWrite a v s).draws = s.draws := by unfold hostWrite; split <;> rfl

/-- What another agent's write does to the command in flight: nothing, or it notes the race (20_memory.md R62). -/
theorem hostWrite_flight (a : Word) (v : Byte) (s : State) :
    (hostWrite a v s).flight = if s.owns a then (s.noteRace a).flight else s.flight := by
  unfold hostWrite; split <;> rfl

/-! ## raise -/

@[simp] theorem State.raise_key (s : State) (r : Result) :
    (s.raise r).key = s.key := by cases r <;> rfl
@[simp] theorem State.raise_nonce (s : State) (r : Result) :
    (s.raise r).nonce = s.nonce := by cases r <;> rfl
@[simp] theorem State.raise_counter (s : State) (r : Result) :
    (s.raise r).counter = s.counter := by cases r <;> rfl
@[simp] theorem State.raise_ksblock (s : State) (r : Result) :
    (s.raise r).ksblock = s.ksblock := by cases r <;> rfl
@[simp] theorem State.raise_offset (s : State) (r : Result) :
    (s.raise r).offset = s.offset := by cases r <;> rfl
@[simp] theorem State.raise_st (s : State) (r : Result) :
    (s.raise r).st = if r = .counterExhausted then .dead else s.st := by cases r <;> rfl
@[simp] theorem State.raise_flight (s : State) (r : Result) :
    (s.raise r).flight = (s.respond r).flight := by cases r <;> rfl
@[simp] theorem State.raise_mem (s : State) (r : Result) :
    (s.raise r).mem = s.mem := by cases r <;> rfl
@[simp] theorem State.raise_host (s : State) (r : Result) :
    (s.raise r).host = s.host := by cases r <;> rfl
@[simp] theorem State.raise_draws (s : State) (r : Result) :
    (s.raise r).draws = s.draws := by cases r <;> rfl
@[simp] theorem State.raise_trace (s : State) (r : Result) :
    (s.raise r).trace = s.trace := by cases r <;> rfl

/-! ## reading a byte of memory, and the predicates, after an update that leaves them alone -/

@[simp] theorem State.log_byteAt (x : Transfer) (s : State) (adr : Word) :
    (s.log x).byteAt adr = s.byteAt adr := rfl
@[simp] theorem State.log_regsLegal (x : Transfer) (s : State) :
    (s.log x).regsLegal = s.regsLegal := rfl
@[simp] theorem State.memWrite_regsLegal (s : State) (a : Word) (v : Byte) :
    (s.memWrite a v).regsLegal = s.regsLegal := rfl
@[simp] theorem State.init_byteAt (s : State) (adr : Word) :
    s.init.byteAt adr = s.byteAt adr := rfl
@[simp] theorem State.pbbLoad_byteAt (s : State) (b : Bytes 64) (adr : Word) :
    (s.pbbLoad b).byteAt adr = s.byteAt adr := rfl
@[simp] theorem State.takeOffset_byteAt (s : State) (n : Nat) (adr : Word) :
    (s.takeOffset n).byteAt adr = s.byteAt adr := rfl
@[simp] theorem State.accept_byteAt (s : State) (c : Option Instr) (adr : Word) :
    (s.accept c).byteAt adr = s.byteAt adr := rfl
@[simp] theorem State.accept_regsLegal (s : State) (c : Option Instr) :
    (s.accept c).regsLegal = s.regsLegal := rfl
@[simp] theorem State.respond_byteAt (s : State) (r : Result) (adr : Word) :
    (s.respond r).byteAt adr = s.byteAt adr := rfl
@[simp] theorem State.respond_regsLegal (s : State) (r : Result) :
    (s.respond r).regsLegal = s.regsLegal := rfl
@[simp] theorem State.takeResponse_byteAt (s : State) (w : Word) (adr : Word) :
    (s.takeResponse w).byteAt adr = s.byteAt adr := rfl
@[simp] theorem State.takeResponse_regsLegal (s : State) (w : Word) :
    (s.takeResponse w).regsLegal = s.regsLegal := rfl
@[simp] theorem State.hardReset_byteAt (s : State) (adr : Word) :
    s.hardReset.byteAt adr = s.byteAt adr := rfl
@[simp] theorem State.goto_byteAt (s : State) (f : Flight) (p : Phase) (adr : Word) :
    (s.goto f p).byteAt adr = s.byteAt adr := rfl
@[simp] theorem State.goto_regsLegal (s : State) (f : Flight) (p : Phase) :
    (s.goto f p).regsLegal = s.regsLegal := rfl
@[simp] theorem State.withHost_byteAt (s : State) (h : List HostAction) (adr : Word) :
    (s.withHost h).byteAt adr = s.byteAt adr := rfl
@[simp] theorem State.withHost_regsLegal (s : State) (h : List HostAction) :
    (s.withHost h).regsLegal = s.regsLegal := rfl
@[simp] theorem State.ended_byteAt (s : State) (c : Option Instr) (r : Result) (adr : Word) :
    (s.ended c r).byteAt adr = s.byteAt adr := rfl
@[simp] theorem State.ended_regsLegal (s : State) (c : Option Instr) (r : Result) :
    (s.ended c r).regsLegal = s.regsLegal := rfl
@[simp] theorem State.bcuNext_snd_byteAt (s : State) (adr : Word) :
    s.bcuNext.2.byteAt adr = s.byteAt adr := rfl
@[simp] theorem State.memRead_snd_byteAt (s : State) (a : Word) (adr : Word) :
    (s.memRead a).2.byteAt adr = s.byteAt adr := rfl
@[simp] theorem State.memRead_snd_regsLegal (s : State) (a : Word) :
    (s.memRead a).2.regsLegal = s.regsLegal := rfl
@[simp] theorem State.loadKeyByte_byteAt (get : Nat → Word → Byte) (kaddr : Word) (s : State) (j : Fin 32) (adr : Word) :
    (State.loadKeyByte get kaddr s j).byteAt adr = s.byteAt adr := rfl
@[simp] theorem State.loadNonceByte_byteAt (get : Nat → Word → Byte) (naddr : Word) (s : State) (j : Fin 8) (adr : Word) :
    (State.loadNonceByte get naddr s j).byteAt adr = s.byteAt adr := rfl
@[simp] theorem State.loadNonceByte_regsLegal (get : Nat → Word → Byte) (naddr : Word) (s : State) (j : Fin 8) :
    (State.loadNonceByte get naddr s j).regsLegal = s.regsLegal := rfl
@[simp] theorem State.raise_byteAt (s : State) (r : Result) (adr : Word) :
    (s.raise r).byteAt adr = s.byteAt adr := by cases r <;> rfl

@[simp] theorem State.memRead_fst (s : State) (a : Word) : (s.memRead a).1 = s.byteAt a := rfl
@[simp] theorem State.bcuNext_fst (s : State) : s.bcuNext.1 = s.counter := rfl

end Sys2Proof.Machine
end

