-- ==== Sys2Proof/Laws/Memory.lean ====
section
/-! SUPPORT. Reading after writing a byte of buffer memory, and the canonical form (20_memory.md R50, R56). -/

namespace Sys2Proof.Machine

theorem Memory.read_insert_same (m : Memory) (a : Nat) (v : Byte) : (m.insert a v).read a = v := by
  induction m with
  | nil => simp [Memory.insert, Memory.read]
  | cons c m ih =>
    obtain ⟨b, w⟩ := c
    simp only [Memory.insert]
    split
    · simp [Memory.read]
    · split
      · simp [Memory.read]
      · simp [Memory.read, *]

theorem Memory.read_insert_other (m : Memory) {a c : Nat} (v : Byte) (h : c ≠ a) :
    (m.insert a v).read c = m.read c := by
  induction m with
  | nil => simp [Memory.insert, Memory.read, h]
  | cons d m ih =>
    obtain ⟨b, w⟩ := d
    simp only [Memory.insert]
    split
    · simp [Memory.read, h]
    · split
      · subst_vars; simp [Memory.read, h]
      · simp [Memory.read, ih]

theorem Memory.read_filter (m : Memory) (a c : Nat) :
    Memory.read (m.filter fun d => d.1 ≠ a) c = if c = a then Memory.unlisted else m.read c := by
  induction m with
  | nil => simp [Memory.read]
  | cons d m ih =>
    obtain ⟨b, w⟩ := d
    by_cases hb : b = a
    · subst hb
      simp only [ne_eq, decide_not] at ih
      by_cases hc : c = b <;> simp_all [Memory.read]
    · simp only [ne_eq, decide_not] at ih
      by_cases hc : c = a
      · subst hc; simp_all [Memory.read, Ne.symm hb]
      · simp_all [Memory.read]

theorem Memory.read_write_same (m : Memory) (a : Nat) (v : Byte) : (m.write a v).read a = v := by
  unfold Memory.write
  split
  · rw [Memory.read_filter]; simp [*]
  · exact Memory.read_insert_same m a v

theorem Memory.read_write_other (m : Memory) {a c : Nat} (v : Byte) (h : c ≠ a) :
    (m.write a v).read c = m.read c := by
  unfold Memory.write
  split
  · rw [Memory.read_filter]; simp [h]
  · exact Memory.read_insert_other m v h

theorem Memory.mem_insert {m : Memory} {a : Nat} {v : Byte} {c : Host.Cell} (h : c ∈ m.insert a v) :
    c = (a, v) ∨ c ∈ m := by
  induction m with
  | nil => simpa [Memory.insert] using h
  | cons d m ih =>
    obtain ⟨b, w⟩ := d
    simp only [Memory.insert] at h
    split at h
    · simpa using h
    · split at h
      · simp only [List.mem_cons] at h ⊢; tauto
      · simp only [List.mem_cons] at h ⊢
        rcases h with h | h
        · tauto
        · have := ih h; tauto

theorem Memory.insert_sorted {m : Memory} {a : Nat} {v : Byte} (h : m.Pairwise fun c d => c.1 < d.1) :
    (m.insert a v).Pairwise fun c d => c.1 < d.1 := by
  induction m with
  | nil => simp [Memory.insert]
  | cons d m ih =>
    obtain ⟨b, w⟩ := d
    rw [List.pairwise_cons] at h
    simp only [Memory.insert]
    split
    · rename_i hab
      refine List.pairwise_cons.2 ⟨?_, List.pairwise_cons.2 h⟩
      intro c hc
      rcases List.mem_cons.1 hc with rfl | hc
      · exact hab
      · exact lt_trans hab (h.1 c hc)
    · split
      · subst_vars; exact List.pairwise_cons.2 ⟨h.1, h.2⟩
      · refine List.pairwise_cons.2 ⟨?_, ih h.2⟩
        intro c hc
        rcases Memory.mem_insert hc with rfl | hc
        · show b < a; omega
        · exact h.1 c hc

theorem Memory.write_wf {m : Memory} {a : Nat} (v : Byte) (ha : a < 2 ^ 32) (h : m.wf) :
    (m.write a v).wf := by
  unfold Memory.write
  split
  · exact ⟨h.1.filter _, fun c hc => h.2 c (List.mem_of_mem_filter hc)⟩
  · rename_i hv
    refine ⟨Memory.insert_sorted h.1, fun c hc => ?_⟩
    rcases Memory.mem_insert hc with rfl | hc
    · exact ⟨hv, ha⟩
    · exact h.2 c hc

theorem State.byteAt_memWrite_same (s : State) (a : Word) (v : Byte) : (s.memWrite a v).byteAt a = v :=
  Memory.read_write_same s.mem a.toNat v

theorem State.byteAt_memWrite_other (s : State) {a c : Word} (v : Byte) (h : c ≠ a) :
    (s.memWrite a v).byteAt c = s.byteAt c :=
  Memory.read_write_other s.mem v (fun e => h (BitVec.eq_of_toNat_eq e))

theorem State.memWrite_wf {s : State} (a : Word) (v : Byte) (h : s.mem.wf) : (s.memWrite a v).mem.wf :=
  Memory.write_wf v a.isLt h
end Sys2Proof.Machine
end

