-- ==== Sys2Proof/Laws/Stream.lean ====
section
/-! SUPPORT. The loop of APPLY as one byte after another (42_apply.md R123), and what that does to the registers: the stream position, the
cached block, the end of the stream (42_apply.md R130, R131; 10_state.md R30, R31). -/

namespace Sys2Proof.Machine

/-- The keystream byte at `OFFSET`. -/
def State.ksNext (s : State) : Byte := s.ksblock.toList.getD s.offset.toNat 0#8

/-- One byte of a run: read, XOR, write, and `OFFSET` one further. -/
def State.xorByte (s : State) (dst src : Word) : State :=
  ((s.memRead src).2.memWrite dst (s.byteAt src ^^^ s.ksNext)).takeOffset 1

/-- APPLY byte by byte: a refill before each byte that needs it; false where GEN raises. -/
def applyBytes (B : Config.BlockFn) : Nat → (dst src : Word) → State → State × Bool
  | 0, _, _, s => (s, true)
  | n + 1, dst, src, s =>
    match s.refill B with
    | none => (s, false)
    | some s1 => applyBytes B n (dst + 1#32) (src + 1#32) (s1.xorByte dst src)

/-- The end of the command: OK, or `CounterExhausted`. -/
def finish (r : State × Bool) : State := if r.2 then r.1.respond .ok else r.1.raise .counterExhausted

theorem xorBytes_cons (k : Byte) (ks : List Byte) (dst src : Word) (s : State) :
    xorBytes (k :: ks) dst src s =
      xorBytes ks (dst + 1#32) (src + 1#32) ((s.memRead src).2.memWrite dst (s.byteAt src ^^^ k)) := rfl

theorem xorBytes_takeOffset (ks : List Byte) (dst src : Word) (n : Nat) (s : State) :
    xorBytes ks dst src (s.takeOffset n) = (xorBytes ks dst src s).takeOffset n := by
  induction ks generalizing dst src s with
  | nil => rfl
  | cons k ks ih => exact ih _ _ ((s.memRead src).2.memWrite dst (s.byteAt src ^^^ k))

theorem takeOffset_add (s : State) (m n : Nat) : (s.takeOffset m).takeOffset n = s.takeOffset (m + n) := by
  simp [State.takeOffset, BitVec.add_assoc, BitVec.ofNat_add]

theorem takeOffset_zero (s : State) : s.takeOffset 0 = s := by simp [State.takeOffset]

theorem refill_fresh (B : Config.BlockFn) {s : State} (h : s.offset.toNat < 64) : s.refill B = some s := by
  have : s.offset ≠ 64#7 := fun e => by simp [e] at h
  simp [State.refill, State.pbbExhausted, this]

theorem takeOffset_toNat {s : State} {n : Nat} (h : s.offset.toNat + n ≤ 64) :
    (s.takeOffset n).offset.toNat = s.offset.toNat + n := by
  simp only [State.takeOffset_offset, BitVec.toNat_add, BitVec.toNat_ofNat]
  omega

@[simp] theorem State.xorByte_key (s : State) (dst src : Word) : (s.xorByte dst src).key = s.key := rfl
@[simp] theorem State.xorByte_nonce (s : State) (dst src : Word) : (s.xorByte dst src).nonce = s.nonce := rfl
@[simp] theorem State.xorByte_counter (s : State) (dst src : Word) : (s.xorByte dst src).counter = s.counter := rfl
@[simp] theorem State.xorByte_ksblock (s : State) (dst src : Word) : (s.xorByte dst src).ksblock = s.ksblock := rfl
@[simp] theorem State.xorByte_offset (s : State) (dst src : Word) :
    (s.xorByte dst src).offset = s.offset + 1#7 := rfl
@[simp] theorem State.xorByte_st (s : State) (dst src : Word) : (s.xorByte dst src).st = s.st := rfl
@[simp] theorem State.xorByte_flight (s : State) (dst src : Word) : (s.xorByte dst src).flight = s.flight := rfl
@[simp] theorem State.xorByte_host (s : State) (dst src : Word) : (s.xorByte dst src).host = s.host := rfl
@[simp] theorem State.xorByte_mem (s : State) (dst src : Word) :
    (s.xorByte dst src).mem = s.mem.write dst.toNat (s.byteAt src ^^^ s.ksNext) := rfl
@[simp] theorem State.xorByte_trace (s : State) (dst src : Word) :
    (s.xorByte dst src).trace =
      .memWrite dst (s.byteAt src ^^^ s.ksNext) :: .memRead src (s.byteAt src) :: s.trace := rfl

/-- A run inside the cached block is its bytes one at a time. -/
theorem applyBytes_run (B : Config.BlockFn) (n m : Nat) (dst src : Word) (s : State)
    (h : s.offset.toNat + n ≤ 64) :
    applyBytes B (n + m) dst src s =
      applyBytes B m (dst + BitVec.ofNat 32 n) (src + BitVec.ofNat 32 n)
        ((xorBytes ((s.ksblock.toList.drop s.offset.toNat).take n) dst src s).takeOffset n) := by
  induction n generalizing dst src s with
  | zero => simp [xorBytes, takeOffset_zero]
  | succ n ih =>
    have hlt : s.offset.toNat < 64 := by omega
    have hoff : (s.xorByte dst src).offset.toNat = s.offset.toNat + 1 :=
      takeOffset_toNat (s := s) (n := 1) (by omega)
    have hlen : s.offset.toNat < s.ksblock.toList.length := by simpa using hlt
    rw [show n + 1 + m = (n + m) + 1 by omega]
    simp only [applyBytes, refill_fresh B hlt]
    rw [ih _ _ _ (by omega), hoff, State.xorByte_ksblock, List.drop_eq_getElem_cons hlen,
      List.take_succ_cons, xorBytes_cons, State.xorByte, xorBytes_takeOffset, takeOffset_add]
    have e : ∀ a : Word, a + 1#32 + BitVec.ofNat 32 n = a + BitVec.ofNat 32 (n + 1) := by
      intro a; rw [BitVec.ofNat_add, BitVec.add_assoc, BitVec.add_comm (BitVec.ofNat 32 n)]
    rw [e, e, Nat.add_comm 1 n, State.ksNext, List.getD_eq_getElem _ _ hlen]

theorem gen_eq (B : Config.BlockFn) (s : State) (h : s.counter ≠ Config.counterMax) :
    s.gen B = some
      { s with
        counter := s.counter + 1#64
        ksblock := B s.key s.nonce s.counter
        offset := 0#7
        trace := .blk (onBus 256 s.key) (onBus 64 s.nonce) s.counter
          (onBus 512 (B s.key s.nonce s.counter)) :: s.trace } := by
  simp only [State.gen, State.bcuExhausted, h, decide_false]; rfl

theorem gen_exhausted (B : Config.BlockFn) (s : State) (h : s.counter = Config.counterMax) :
    s.gen B = none := by
  simp [State.gen, State.bcuExhausted, h]

/-- What a refill can do: nothing while the block has bytes; else GEN, or no state where the counter is exhausted. -/
theorem refill_cases (B : Config.BlockFn) (s : State) :
    (s.offset ≠ 64#7 ∧ s.refill B = some s) ∨
    (s.offset = 64#7 ∧ s.counter = Config.counterMax ∧ s.refill B = none) ∨
    (s.offset = 64#7 ∧ s.counter ≠ Config.counterMax ∧ s.refill B = some
      { s with
        counter := s.counter + 1#64
        ksblock := B s.key s.nonce s.counter
        offset := 0#7
        trace := .blk (onBus 256 s.key) (onBus 64 s.nonce) s.counter
          (onBus 512 (B s.key s.nonce s.counter)) :: s.trace }) := by
  by_cases ho : s.offset = 64#7
  · by_cases hc : s.counter = Config.counterMax
    · exact .inr (.inl ⟨ho, hc, by simp [State.refill, State.pbbExhausted, ho, gen_exhausted B s hc]⟩)
    · refine .inr (.inr ⟨ho, hc, ?_⟩)
      rw [State.refill, State.pbbExhausted, ho]; simpa [ho] using gen_eq B s hc
  · exact .inl ⟨ho, by simp [State.refill, State.pbbExhausted, ho]⟩

theorem refill_offset {B : Config.BlockFn} {s s1 : State} (h : s.refill B = some s1)
    (ho : s.offset.toNat ≤ 64) : s1.offset.toNat < 64 := by
  rcases refill_cases B s with ⟨h1, h2⟩ | ⟨-, -, h2⟩ | ⟨-, -, h2⟩
  · have : s.offset.toNat ≠ 64 := fun e => h1 (BitVec.eq_of_toNat_eq (by simpa using e))
    rw [h2] at h; cases h; omega
  · rw [h2] at h; cases h
  · rw [h2] at h; cases h; simp

/-- A refill once made is not made again. -/
theorem applyBytes_refill {B : Config.BlockFn} {s s1 : State} (h : s.refill B = some s1)
    (ho : s.offset.toNat ≤ 64) (n : Nat) (dst src : Word) :
    applyBytes B (n + 1) dst src s = applyBytes B (n + 1) dst src s1 := by
  simp only [applyBytes, h, refill_fresh B (refill_offset h ho)]

/-- The loop of APPLY is the bytes of the command one at a time, whatever number of passes from the bytes remaining
up bounds it: it never stops for want of passes. -/
theorem applyLoop_passes (B : Config.BlockFn) (dst src len : Word) (passes : Nat) (cur : Word) (s : State)
    (ho : s.offset.toNat ≤ 64) (hp : len.toNat - cur.toNat ≤ passes) :
    applyLoop B dst src len passes cur s =
      finish (applyBytes B (len.toNat - cur.toNat) (dst + cur) (src + cur) s) := by
  induction passes generalizing cur s with
  | zero =>
    have : len.toNat - cur.toNat = 0 := by omega
    simp [applyLoop, this, applyBytes, finish]
  | succ passes ih =>
    simp only [applyLoop]
    split
    case isFalse h =>
      have : len.toNat - cur.toNat = 0 := by rw [BitVec.lt_def] at h; omega
      simp [this, applyBytes, finish]
    case isTrue h =>
      rw [BitVec.lt_def] at h
      obtain ⟨r, hr⟩ : ∃ r, len.toNat - cur.toNat = r + 1 := ⟨len.toNat - cur.toNat - 1, by omega⟩
      cases hs : s.refill B with
      | none => simp [hr, applyBytes, hs, finish]
      | some s1 =>
        have h1 := refill_offset hs ho
        have hrem : (len - cur).toNat = len.toNat - cur.toNat := by
          rw [BitVec.toNat_sub]; have := len.isLt; have := cur.isLt; omega
        have hn : s1.runLen (len - cur) = min (64 - s1.offset.toNat) (r + 1) := by
          rw [State.runLen, hrem, hr]
        have hle := len.isLt
        generalize hnn : s1.runLen (len - cur) = n at hn
        have hcur : (takeCursor cur n).toNat = cur.toNat + n := by
          simp only [takeCursor, BitVec.toNat_add, BitVec.toNat_ofNat]; omega
        have hoff : ((s1.xorRun dst src cur n).takeOffset n).offset.toNat ≤ 64 := by
          have e : (s1.xorRun dst src cur n).offset = s1.offset := by
            have : ∀ (ks : List Byte) (d e : Word) (t : State), (xorBytes ks d e t).offset = t.offset := by
              intro ks
              induction ks with
              | nil => intros; rfl
              | cons k ks ih => intro d e t; rw [xorBytes_cons, ih]; rfl
            exact this _ _ _ _
          rw [takeOffset_toNat (by rw [e]; omega), e]; omega
        simp only [hnn]
        rw [ih _ _ hoff (by omega), hr, applyBytes_refill hs ho,
          show r + 1 = n + (len.toNat - (takeCursor cur n).toNat) by omega,
          applyBytes_run B _ _ _ _ _ (by omega)]
        simp [State.xorRun, takeCursor, BitVec.add_assoc]

/-- APPLY on a READY instance with equal lengths is its bytes one at a time. -/
theorem applyBody_ready (B : Config.BlockFn) (dst src len : Word) (s : State) (hst : s.st = .ready)
    (ho : s.offset.toNat ≤ 64) :
    applyBody B dst len src len s = finish (applyBytes B len.toNat dst src s) := by
  have := applyLoop_passes B dst src len len.toNat 0#32 s ho (by simp)
  simpa [applyBody, hst] using this

/-! ## Registers and stream position -/

theorem offset_le_of_regsLegal {s : State} (h : s.regsLegal = true) : s.offset.toNat ≤ 64 := by
  simp only [State.regsLegal, decide_eq_true_eq] at h; exact h.1

theorem offset_eq_64_iff {s : State} : s.offset = 64#7 ↔ s.offset.toNat = 64 :=
  ⟨fun h => by simp [h], fun h => BitVec.eq_of_toNat_eq (by simpa using h)⟩

theorem counter_eq_max_iff {s : State} : s.counter = Config.counterMax ↔ s.counter.toNat = 2 ^ 64 - 1 :=
  ⟨fun h => by simp [h], fun h => BitVec.eq_of_toNat_eq (by simpa using h)⟩

theorem counter_succ_toNat {s : State} (h : s.counter ≠ Config.counterMax) :
    (s.counter + 1#64).toNat = s.counter.toNat + 1 := by
  have := mt counter_eq_max_iff.2 h
  have := s.counter.isLt
  simp only [BitVec.toNat_add, BitVec.toNat_ofNat]; omega

theorem counter_eq_zero_iff {s : State} : s.counter = 0#64 ↔ s.counter.toNat = 0 :=
  ⟨fun h => by simp [h], fun h => BitVec.eq_of_toNat_eq (by simpa using h)⟩

/-- With the cached-block invariant the position is `64 * COUNTER + OFFSET` less one block, without truncation. -/
theorem pos_add_64 {B : Config.BlockFn} {s : State} (hc : s.cachedBlock B) :
    s.pos + 64 = 64 * s.counter.toNat + s.offset.toNat := by
  unfold State.pos
  by_cases h : s.counter = 0#64
  · have := offset_eq_64_iff.1 (hc.1 h).1; omega
  · have := mt counter_eq_zero_iff.2 h; omega

theorem pos_le_capacity {s : State} (ho : s.offset.toNat ≤ 64) : s.pos ≤ streamCapacity := by
  unfold State.pos streamCapacity; have := s.counter.isLt; omega

/-- Where the refill of a byte leads: to no state exactly at the end of the usable stream; else to a state at the same
position whose cached block has the next keystream byte at `OFFSET`. -/
theorem refill_spec {B : Config.BlockFn} {s : State} (ho : s.offset.toNat ≤ 64) (hc : s.cachedBlock B) :
    (s.refill B = none ∧ s.pos = streamCapacity) ∨
    ∃ s1, s.refill B = some s1 ∧ s.pos < streamCapacity ∧ s1.offset.toNat < 64 ∧ s1.pos = s.pos ∧
      s1.cachedBlock B ∧ s1.ksNext = keystreamByte B s.key s.nonce s.pos ∧
      s1.key = s.key ∧ s1.nonce = s.nonce ∧ s1.st = s.st ∧ s1.flight = s.flight ∧ s1.host = s.host ∧
      s1.mem = s.mem := by
  have hp := pos_add_64 hc
  have hl := s.counter.isLt
  rcases refill_cases B s with ⟨h1, h2⟩ | ⟨h0, h1, h2⟩ | ⟨h0, h1, h2⟩
  · have h1' : s.offset.toNat < 64 := by have := mt offset_eq_64_iff.2 h1; omega
    have hz : s.counter ≠ 0#64 := fun e => h1 (hc.1 e).1
    have hz' := mt counter_eq_zero_iff.2 hz
    refine .inr ⟨s, h2, by unfold streamCapacity; omega, h1', rfl, hc, ?_, rfl, rfl, rfl, rfl, rfl, rfl⟩
    have hlen : s.offset.toNat < s.ksblock.toList.length := by simpa using h1'
    have hdiv : BitVec.ofNat 64 (s.pos / 64) = s.counter - 1#64 := by
      apply BitVec.eq_of_toNat_eq
      rw [BitVec.toNat_sub, BitVec.toNat_ofNat, BitVec.toNat_ofNat]; omega
    have hmod : s.pos % 64 = s.offset.toNat := by omega
    simp only [State.ksNext, List.getD_eq_getElem _ _ hlen, keystreamByte, hdiv, ← hc.2 hz, hmod,
      Vector.getElem_toList]
  · rw [offset_eq_64_iff] at h0; rw [counter_eq_max_iff] at h1
    exact .inl ⟨h2, by unfold streamCapacity; omega⟩
  · have h0' := offset_eq_64_iff.1 h0
    have h1' := mt counter_eq_max_iff.2 h1
    have hs := counter_succ_toNat h1
    refine .inr ⟨_, h2, by unfold streamCapacity; omega, by simp, ?_, ?_, ?_, rfl, rfl, rfl, rfl, rfl, rfl⟩
    · simp only [State.pos, hs]; simp; omega
    · refine ⟨fun e => ?_, fun _ => ?_⟩
      · have := congrArg BitVec.toNat e; simp only [hs] at this; simp at this
      · simp
    · have hdiv : BitVec.ofNat 64 (s.pos / 64) = s.counter := by
        apply BitVec.eq_of_toNat_eq
        rw [BitVec.toNat_ofNat]; omega
      have hmod : s.pos % 64 = 0 := by omega
      simp only [State.ksNext, keystreamByte, hdiv, hmod]
      simp

/-- Where one byte leads: the same instance, one position further, in a cached block. -/
theorem xorByte_spec {B : Config.BlockFn} {s : State} (dst src : Word) (ho : s.offset.toNat < 64)
    (hc : s.cachedBlock B) :
    (s.xorByte dst src).pos = s.pos + 1 ∧ (s.xorByte dst src).cachedBlock B ∧
      (s.xorByte dst src).offset.toNat = s.offset.toNat + 1 := by
  have h1 : (s.xorByte dst src).offset.toNat = s.offset.toNat + 1 :=
    takeOffset_toNat (s := s) (n := 1) (by omega)
  have hz : s.counter ≠ 0#64 := fun e => by have := offset_eq_64_iff.1 (hc.1 e).1; omega
  have hz' := mt counter_eq_zero_iff.2 hz
  refine ⟨?_, ⟨fun e => absurd e hz, fun _ => hc.2 hz⟩, h1⟩
  simp only [State.pos, h1, State.xorByte_counter]; omega

/-- What APPLY's bytes leave alone. -/
theorem applyBytes_frame (B : Config.BlockFn) (n : Nat) (dst src : Word) (s : State) :
    let t := (applyBytes B n dst src s).1
    t.key = s.key ∧ t.nonce = s.nonce ∧ t.st = s.st ∧ t.flight = s.flight ∧ t.host = s.host := by
  induction n generalizing dst src s with
  | zero => simp [applyBytes]
  | succ n ih =>
    rcases refill_cases B s with ⟨-, h2⟩ | ⟨-, -, h2⟩ | ⟨-, -, h2⟩ <;> simp only [applyBytes, h2]
    · simpa using ih (dst + 1#32) (src + 1#32) (s.xorByte dst src)
    · simp
    · simpa using ih (dst + 1#32) (src + 1#32) (State.xorByte _ dst src)

/-- Where APPLY's bytes end: at the position wanted, or at the end of the usable stream; and which of the two. -/
theorem applyBytes_pos {B : Config.BlockFn} (n : Nat) (dst src : Word) {s : State}
    (ho : s.offset.toNat ≤ 64) (hc : s.cachedBlock B) :
    let r := applyBytes B n dst src s
    r.2 = decide (s.pos + n ≤ streamCapacity) ∧ r.1.pos = min (s.pos + n) streamCapacity ∧
      r.1.cachedBlock B ∧ r.1.offset.toNat ≤ 64 ∧ (s.offset ≠ 0#7 → r.1.offset ≠ 0#7) ∧
      (n ≠ 0 → r.1.offset ≠ 0#7) := by
  induction n generalizing dst src s with
  | zero => have := pos_le_capacity ho; simp [applyBytes, hc, ho, this]
  | succ n ih =>
    rcases refill_spec ho hc with ⟨h, hp⟩ | ⟨s1, h, hp, h1, h2, h3, -⟩
    · have e : s.offset ≠ 0#7 := by
        rcases refill_cases B s with ⟨-, h'⟩ | ⟨h', -, -⟩ | ⟨h', -, -⟩
        · rw [h] at h'; cases h'
        all_goals rw [h']; decide
      simp only [applyBytes, h]
      exact ⟨by simp; omega, by omega, hc, ho, fun _ => e, fun _ => e⟩
    · obtain ⟨x1, x2, x3⟩ := xorByte_spec dst src h1 h3
      have := ih (dst + 1#32) (src + 1#32) (s := s1.xorByte dst src) (by omega) x2
      simp only [applyBytes, h]
      rw [x1, h2, Nat.add_assoc, Nat.add_comm 1 n] at this
      have hne : (s1.xorByte dst src).offset ≠ 0#7 := fun e => by rw [e] at x3; simp at x3
      refine ⟨this.1, this.2.1, this.2.2.1, this.2.2.2.1,
        fun _ => this.2.2.2.2.1 hne, fun _ => this.2.2.2.2.1 hne⟩

/-- An APPLY past the end of the stream leaves what one that just reaches it leaves (42_apply.md R126, R131). -/
theorem applyBytes_exhausted {B : Config.BlockFn} (n : Nat) (dst src : Word) {s : State}
    (ho : s.offset.toNat ≤ 64) (hc : s.cachedBlock B) (hn : streamCapacity ≤ s.pos + n) :
    (applyBytes B n dst src s).1 = (applyBytes B (streamCapacity - s.pos) dst src s).1 := by
  induction n generalizing dst src s with
  | zero => rw [show streamCapacity - s.pos = 0 by omega]
  | succ n ih =>
    rcases refill_spec ho hc with ⟨h, hp⟩ | ⟨s1, h, hp, h1, h2, h3, -⟩
    · rw [hp, Nat.sub_self]
      simp only [applyBytes, h]
    · obtain ⟨x1, x2, x3⟩ := xorByte_spec dst src h1 h3
      rw [show streamCapacity - s.pos = (streamCapacity - (s1.xorByte dst src).pos) + 1 by omega]
      simp only [applyBytes, h]
      exact ih (dst + 1#32) (src + 1#32) (by omega) x2 (by omega)

end Sys2Proof.Machine
end

