-- ==== Sys2Proof/Laws/Buffers.lean ====
section
/-! SUPPORT. Addresses of buffer bytes (20_memory.md R51, R54), and what APPLY does to memory (20_memory.md R59, R67, R68). -/

namespace Sys2Proof.Machine

theorem bufAddr_succ (base : Word) (j : Nat) : bufAddr (base + 1#32) j = bufAddr base (j + 1) := by
  simp only [bufAddr, BitVec.ofNat_add]
  rw [BitVec.add_assoc, BitVec.add_comm (BitVec.ofNat 32 j)]

@[simp] theorem bufAddr_zero (base : Word) : bufAddr base 0 = base := by simp [bufAddr]

/-- Two bytes of a buffer of at most `2^32` bytes have different addresses. -/
theorem bufAddr_inj {base : Word} {i j : Nat} (hi : i < 2 ^ 32) (hj : j < 2 ^ 32)
    (h : bufAddr base i = bufAddr base j) : i = j := by
  have := congrArg BitVec.toNat (add_left_cancel (a := base) h)
  simp only [BitVec.toNat_ofNat] at this
  omega

/-- The bytes of a buffer are its addresses (20_memory.md R51). -/
theorem inBuffer_iff (base len a : Word) :
    inBuffer base len a = true ↔ ∃ j, j < len.toNat ∧ a = bufAddr base j := by
  simp only [inBuffer, decide_eq_true_eq, bufAddr]
  constructor
  · intro h
    refine ⟨_, h, ?_⟩
    apply BitVec.eq_of_toNat_eq
    have := a.isLt; have := base.isLt
    simp; omega
  · rintro ⟨j, h, rfl⟩
    have := len.isLt
    rw [BitVec.add_comm, BitVec.add_sub_cancel, BitVec.toNat_ofNat]; omega

theorem bufAddr_src_eq_dst (dst src : Word) (j : Nat) (h : (dst - src).toNat ≤ j) :
    bufAddr src j = bufAddr dst (j - (dst - src).toNat) := by
  obtain ⟨k, rfl⟩ := Nat.exists_eq_add_of_le h
  simp only [bufAddr, BitVec.ofNat_add, BitVec.ofNat_toNat, BitVec.setWidth_eq, Nat.add_sub_cancel_left]
  rw [← BitVec.add_assoc, BitVec.add_comm src, BitVec.sub_add_cancel]

theorem bufAddr_src_ne_dst {dst src : Word} {j : Nat} (hj : j < 2 ^ 32) (h : (dst - src).toNat ≠ j) :
    bufAddr src j ≠ dst := by
  rintro rfl
  apply h
  rw [bufAddr, BitVec.add_comm, BitVec.add_sub_cancel, BitVec.toNat_ofNat]; omega

theorem State.byteAt_xorByte_same (s : State) (dst src : Word) :
    (s.xorByte dst src).byteAt dst = s.byteAt src ^^^ s.ksNext := Memory.read_write_same ..

theorem State.byteAt_xorByte_other (s : State) {dst a : Word} (src : Word) (h : a ≠ dst) :
    (s.xorByte dst src).byteAt a = s.byteAt a :=
  Memory.read_write_other _ _ (fun e => h (BitVec.eq_of_toNat_eq e))

/-- Memory outside the bytes processed is as before. -/
theorem applyBytes_other {B : Config.BlockFn} {n : Nat} {dst src : Word} {s : State} {a : Word}
    (ho : s.offset.toNat ≤ 64) (hc : s.cachedBlock B)
    (h : ∀ i, i < min n (streamCapacity - s.pos) → a ≠ bufAddr dst i) :
    (applyBytes B n dst src s).1.byteAt a = s.byteAt a := by
  induction n generalizing dst src s with
  | zero => rfl
  | succ n ih =>
    rcases refill_spec ho hc with ⟨h0, -⟩ | ⟨s1, h0, hp, h1, h2, h3, -, -, -, -, -, -, hm⟩ <;>
      simp only [applyBytes, h0]
    obtain ⟨x1, x2, x3⟩ := xorByte_spec dst src h1 h3
    have e : a ≠ dst := by simpa using h 0 (by omega)
    rw [ih (by omega) x2 (fun i hi => by rw [bufAddr_succ]; exact h _ (by omega)),
      State.byteAt_xorByte_other _ _ e, State.byteAt, hm, State.byteAt]

/-- Memory outside the destination is as before, in every state. -/
theorem applyBytes_outside (B : Config.BlockFn) {n : Nat} {dst src : Word} {s : State} {a : Word}
    (h : ∀ i, i < n → a ≠ bufAddr dst i) :
    (applyBytes B n dst src s).1.byteAt a = s.byteAt a := by
  induction n generalizing dst src s with
  | zero => rfl
  | succ n ih =>
    have e : a ≠ dst := by simpa using h 0 (by omega)
    rcases refill_cases B s with ⟨-, h2⟩ | ⟨-, -, h2⟩ | ⟨-, -, h2⟩ <;> simp only [applyBytes, h2]
    all_goals
      rw [ih (fun i hi => by rw [bufAddr_succ]; exact h _ (by omega)), State.byteAt_xorByte_other _ _ e]
    rfl

theorem applyBytes_wf (B : Config.BlockFn) (n : Nat) (dst src : Word) {s : State} (h : s.mem.wf) :
    (applyBytes B n dst src s).1.mem.wf := by
  induction n generalizing dst src s with
  | zero => exact h
  | succ n ih =>
    rcases refill_cases B s with ⟨-, h2⟩ | ⟨-, -, h2⟩ | ⟨-, -, h2⟩ <;> simp only [applyBytes, h2]
    · exact ih _ _ (Memory.write_wf _ dst.isLt h)
    · exact h
    · exact ih _ _ (Memory.write_wf _ dst.isLt h)

/-- Each byte processed is the byte read XOR the keystream byte of its position; the byte read is the one before the
command, or, from the overlap distance on, an output byte (20_memory.md R60, R68). -/
theorem applyBytes_output {B : Config.BlockFn} {n : Nat} {dst src : Word} {s : State}
    (hn : n ≤ 2 ^ 32) (ho : s.offset.toNat ≤ 64) (hc : s.cachedBlock B) {i : Nat}
    (hi : i < min n (streamCapacity - s.pos)) :
    let t := (applyBytes B n dst src s).1
    t.byteAt (bufAddr dst i) =
      (if (dst - src).toNat = 0 ∨ i < (dst - src).toNat then s.byteAt (bufAddr src i)
        else t.byteAt (bufAddr dst (i - (dst - src).toNat))) ^^^ keystreamByte B s.key s.nonce (s.pos + i) := by
  induction n generalizing dst src s i with
  | zero => omega
  | succ n ih =>
    rcases refill_spec ho hc with ⟨h0, hp⟩ | ⟨s1, h0, hp, h1, h2, h3, hk, hkey, hnonce, -, -, -, hm⟩
    · omega
    obtain ⟨x1, x2, x3⟩ := xorByte_spec dst src h1 h3
    have hb : ∀ a, s1.byteAt a = s.byteAt a := fun a => by rw [State.byteAt, hm, State.byteAt]
    have first : (applyBytes B n (dst + 1#32) (src + 1#32) (s1.xorByte dst src)).1.byteAt dst =
        s.byteAt src ^^^ keystreamByte B s.key s.nonce s.pos := by
      rw [applyBytes_outside, State.byteAt_xorByte_same, hk, hb]
      intro j hj e
      rw [bufAddr_succ] at e
      have := bufAddr_inj (base := dst) (i := 0) (j := j + 1) (by omega) (by omega) (by simpa using e)
      omega
    simp only [applyBytes, h0]
    rcases i with _ | i
    · rw [bufAddr_zero, first, bufAddr_zero, Nat.add_zero]
      congr 1
      rw [if_pos (by omega)]
    · have := ih (dst := dst + 1#32) (src := src + 1#32) (s := s1.xorByte dst src) (by omega) (by omega) x2
        (i := i) (by omega)
      simp only [bufAddr_succ, State.xorByte_key, State.xorByte_nonce, hkey, hnonce, x1, h2] at this
      have hd : dst + 1#32 - (src + 1#32) = dst - src := by
        rw [BitVec.sub_eq_add_neg, BitVec.neg_add, BitVec.sub_eq_add_neg, BitVec.sub_eq_add_neg,
          ← BitVec.add_assoc, BitVec.add_assoc dst, BitVec.add_comm 1#32, ← BitVec.add_assoc, BitVec.add_assoc,
          ← BitVec.sub_eq_add_neg 1#32, BitVec.sub_self, BitVec.add_zero]
      rw [hd] at this
      rw [this, Nat.add_assoc, Nat.add_comm 1 i]
      congr 1
      by_cases c0 : (dst - src).toNat = 0
      · have hds : dst = src := by
          have := BitVec.sub_add_cancel dst src
          rw [show dst - src = 0#32 from BitVec.eq_of_toNat_eq (by simpa using c0)] at this
          simpa using this.symm
        rw [if_pos (.inl c0), if_pos (.inl c0), State.byteAt_xorByte_other, hb]
        exact bufAddr_src_ne_dst (by omega) (by omega)
      · by_cases c1 : i + 1 < (dst - src).toNat
        · rw [if_pos (.inr (by omega)), if_pos (.inr c1), State.byteAt_xorByte_other, hb]
          exact bufAddr_src_ne_dst (by omega) (by omega)
        · rw [if_neg (by omega) (c := _ ∨ i + 1 < _)]
          by_cases c2 : i + 1 = (dst - src).toNat
          · rw [if_pos (.inr (by omega)), ← c2, Nat.sub_self, bufAddr_zero, first,
              bufAddr_src_eq_dst dst src (i + 1) (by omega), c2, Nat.sub_self, bufAddr_zero,
              State.byteAt_xorByte_same, hk, hb]
          · rw [if_neg (by omega), show i - (dst - src).toNat + 1 = i + 1 - (dst - src).toNat by omega]
end Sys2Proof.Machine
end

