-- ==== Sys2Proof/Laws/Encoding.lean ====
section
/-! SUPPORT. Packets and their words (30_encoding.md R70, R71, R75, R82). -/

namespace Sys2Proof

/-- A packet as a number: its words, the first in the low bits (30_encoding.md R70, R82). -/
theorem packetOf_toNat (w0 w1 w2 w3 w4 : Word) :
    (packetOf w0 w1 w2 w3 w4).toNat =
      w0.toNat + 2 ^ 32 * (w1.toNat + 2 ^ 32 * (w2.toNat + 2 ^ 32 * (w3.toNat + 2 ^ 32 * w4.toNat))) := by
  have h0 := w0.isLt; have h1 := w1.isLt; have h2 := w2.isLt; have h3 := w3.isLt
  show (w4 ++ w3 ++ w2 ++ w1 ++ w0 : BitVec (32 + 32 + 32 + 32 + 32)).toNat = _
  simp only [BitVec.toNat_append]
  rw [← Nat.shiftLeft_add_eq_or_of_lt h3, ← Nat.shiftLeft_add_eq_or_of_lt h2,
    ← Nat.shiftLeft_add_eq_or_of_lt h1, ← Nat.shiftLeft_add_eq_or_of_lt h0]
  simp only [Nat.shiftLeft_eq]
  omega

theorem packetWord_toNat (p : Packet) (i : Nat) :
    (packetWord p i).toNat = p.toNat / 2 ^ (32 * i) % 2 ^ 32 := by
  simp [packetWord, Nat.shiftRight_eq_div_pow]

/-- The words of a packet put together from five words are those words. -/
theorem packetWord_packetOf (w0 w1 w2 w3 w4 : Word) :
    packetWord (packetOf w0 w1 w2 w3 w4) 0 = w0 ∧ packetWord (packetOf w0 w1 w2 w3 w4) 1 = w1 ∧
    packetWord (packetOf w0 w1 w2 w3 w4) 2 = w2 ∧ packetWord (packetOf w0 w1 w2 w3 w4) 3 = w3 ∧
    packetWord (packetOf w0 w1 w2 w3 w4) 4 = w4 := by
  have h0 := w0.isLt; have h1 := w1.isLt; have h2 := w2.isLt; have h3 := w3.isLt; have h4 := w4.isLt
  refine ⟨?_, ?_, ?_, ?_, ?_⟩ <;> apply BitVec.eq_of_toNat_eq <;>
    rw [packetWord_toNat, packetOf_toNat] <;> omega

/-- A packet is its five words put together. -/
theorem packetOf_packetWord (p : Packet) :
    packetOf (packetWord p 0) (packetWord p 1) (packetWord p 2) (packetWord p 3) (packetWord p 4) = p := by
  apply BitVec.eq_of_toNat_eq
  have := p.isLt
  rw [packetOf_toNat]; simp only [packetWord_toNat]; omega

/-- The header's two fields are the header word (30_encoding.md R71). -/
theorem header_fields (p : Packet) (k : BitVec 8) :
    (packetRsv p = 0#24 ∧ packetOpc p = k) ↔ packetWord p 0 = k.setWidth 32 := by
  simp only [packetRsv, packetOpc]
  generalize packetWord p 0 = w
  have hw := w.isLt; have hk := k.isLt
  constructor
  · rintro ⟨h1, h2⟩
    have e1 := congrArg BitVec.toNat h1
    have e2 := congrArg BitVec.toNat h2
    apply BitVec.eq_of_toNat_eq
    simp [Nat.shiftRight_eq_div_pow] at e1 e2 ⊢; omega
  · rintro rfl
    constructor <;> apply BitVec.eq_of_toNat_eq <;> simp [Nat.shiftRight_eq_div_pow] <;> omega

/-- Decoding, by the header word (30_encoding.md R75). -/
theorem decode_header (p : Packet) :
    (packetWord p 0 = 1#32 → decode p =
      .cmd (.new (packetWord p 1) (packetWord p 2) (packetWord p 3) (packetWord p 4))) ∧
    (packetWord p 0 = 2#32 → decode p =
      .cmd (.apply (packetWord p 1) (packetWord p 2) (packetWord p 3) (packetWord p 4))) ∧
    (packetWord p 0 ≠ 1#32 → packetWord p 0 ≠ 2#32 → ∃ r, decode p = .illegal r) := by
  refine ⟨fun h => ?_, fun h => ?_, fun h1 h2 => ?_⟩
  · obtain ⟨e1, e2⟩ := (header_fields p 1#8).2 (by simpa using h)
    simp [decode, e1, e2]
  · obtain ⟨e1, e2⟩ := (header_fields p 2#8).2 (by simpa using h)
    simp [decode, e1, e2]
  · unfold decode
    split
    · exact ⟨_, rfl⟩
    · rename_i hr
      rw [not_not] at hr
      rw [if_neg fun e => h1 (by simpa using (header_fields p 1#8).1 ⟨hr, e⟩),
        if_neg fun e => h2 (by simpa using (header_fields p 2#8).1 ⟨hr, e⟩)]
      exact ⟨_, rfl⟩
end Sys2Proof
end

