-- ==== Sys2Proof/Laws/New.lean ====
section
/-! SUPPORT. The loads and the initialisation of NEW as one equation (41_new.md R112, R113). -/

namespace Sys2Proof.Machine

/-! ## NEW -/

/-- The loads of some key bytes: those bytes are what the reads return, each load is one read, and nothing else
changes. -/
theorem loadKey_fold (get : Nat → Word → Byte) (kaddr : Word) (l : List (Fin 32)) (s : State) :
    l.foldl (State.loadKeyByte get kaddr) s =
      { s with
        key := l.foldl (fun (k : Bytes 32) (j : Fin 32) => k.set j (get j.val (bufAddr kaddr j.val))) s.key
        trace := (l.map fun j => .memRead (bufAddr kaddr j.val) (get j.val (bufAddr kaddr j.val))).reverse
          ++ s.trace } := by
  induction l generalizing s with
  | nil => rfl
  | cons j l ih =>
    rw [List.foldl_cons, ih]
    simp [State.loadKeyByte, State.log]

/-- The loads of some nonce bytes. -/
theorem loadNonce_fold (get : Nat → Word → Byte) (naddr : Word) (l : List (Fin 8)) (s : State) :
    l.foldl (State.loadNonceByte get naddr) s =
      { s with
        nonce := l.foldl (fun (k : Bytes 8) (j : Fin 8) => k.set j (get (32 + j.val) (bufAddr naddr j.val))) s.nonce
        trace := (l.map fun j => .memRead (bufAddr naddr j.val) (get (32 + j.val) (bufAddr naddr j.val))).reverse
          ++ s.trace } := by
  induction l generalizing s with
  | nil => rfl
  | cons j l ih =>
    rw [List.foldl_cons, ih]
    simp [State.loadNonceByte, State.log]

theorem foldl_set_getElem {n : Nat} (f : Fin n → Byte) (l : List (Fin n)) (v : Bytes n) (j : Fin n) :
    (l.foldl (fun (k : Bytes n) (i : Fin n) => k.set i (f i)) v)[j] = if j ∈ l then f j else v[j] := by
  induction l generalizing v with
  | nil => simp
  | cons i l ih =>
    rw [List.foldl_cons, ih]
    by_cases hj : j ∈ l
    · simp [hj]
    · by_cases e : j = i
      · subst e; simp [hj]
      · have : (i : Nat) ≠ j := fun h => e (Fin.ext h.symm)
        simp [hj, e, this]

/-- The state after the loads and the initialisation of NEW, whatever the reads return (41_new.md R112, R113). -/
theorem constructFrom_eq (s : State) (get : Nat → Word → Byte) (kaddr naddr : Word) :
    ∃ key nonce, s.constructFrom get kaddr naddr =
      { s with
        key := key
        nonce := nonce
        counter := 0#64
        ksblock := Bytes.zero 64
        offset := 64#7
        st := .ready
        trace := ((List.range 8).map fun j => .memRead (bufAddr naddr j) (get (32 + j) (bufAddr naddr j))).reverse ++
          (((List.range 32).map fun j => .memRead (bufAddr kaddr j) (get j (bufAddr kaddr j))).reverse ++ s.trace) } ∧
      (∀ j : Fin 32, key[j] = get j.val (bufAddr kaddr j.val)) ∧
      (∀ j : Fin 8, nonce[j] = get (32 + j.val) (bufAddr naddr j.val)) := by
  refine ⟨(List.finRange 32).foldl
      (fun (k : Bytes 32) (j : Fin 32) => k.set j (get j.val (bufAddr kaddr j.val))) s.key,
    (List.finRange 8).foldl
      (fun (k : Bytes 8) (j : Fin 8) => k.set j (get (32 + j.val) (bufAddr naddr j.val))) s.nonce,
    ?_, fun j => ?_, fun j => ?_⟩
  · rw [State.constructFrom, loadKey_fold, loadNonce_fold]
    simp only [State.init]
    rw [← List.map_coe_finRange_eq_range, ← List.map_coe_finRange_eq_range, List.map_map, List.map_map]
    rfl
  · rw [foldl_set_getElem, if_pos (List.mem_finRange j)]
  · rw [foldl_set_getElem, if_pos (List.mem_finRange j)]

/-- The same with no data race: the reads return the buffers' bytes. -/
theorem construct_eq (s : State) (kaddr naddr : Word) :
    ∃ key nonce, s.construct kaddr naddr =
      { s with
        key := key
        nonce := nonce
        counter := 0#64
        ksblock := Bytes.zero 64
        offset := 64#7
        st := .ready
        trace := ((List.range 8).map fun j =>
            .memRead (bufAddr naddr j) (s.byteAt (bufAddr naddr j))).reverse ++
          (((List.range 32).map fun j =>
            .memRead (bufAddr kaddr j) (s.byteAt (bufAddr kaddr j))).reverse ++ s.trace) } ∧
      (∀ j : Fin 32, key[j] = s.byteAt (bufAddr kaddr j.val)) ∧
      (∀ j : Fin 8, nonce[j] = s.byteAt (bufAddr naddr j.val)) :=
  constructFrom_eq s (fun _ a => s.byteAt a) kaddr naddr

end Sys2Proof.Machine
end

