-- ==== Sys2Proof/Laws/Transfers.lean ====
section
/-! SUPPORT. The transfers APPLY makes on the memory and the block-function port (20_memory.md R60; 42_apply.md R132). -/

namespace Sys2Proof.Machine

/-! ## Transfers of APPLY -/

/-- The accesses to memory of APPLY's bytes, in order (20_memory.md R60). -/
theorem applyBytes_accesses {B : Config.BlockFn} {n : Nat} {dst src : Word} {s : State}
    (ho : s.offset.toNat ≤ 64) (hc : s.cachedBlock B) (hn : s.pos + n ≤ streamCapacity) :
    ∃ fresh, (applyBytes B n dst src s).1.trace.reverse = s.trace.reverse ++ fresh ∧
      fresh.filterMap Transfer.access =
        (List.range n).flatMap fun i => [(false, bufAddr src i), (true, bufAddr dst i)] := by
  induction n generalizing dst src s with
  | zero => exact ⟨[], by simp [applyBytes], rfl⟩
  | succ n ih =>
    rcases refill_spec ho hc with ⟨-, hp⟩ | ⟨s1, h0, hp, h1, h2, h3, -⟩
    · omega
    obtain ⟨x1, x2, x3⟩ := xorByte_spec dst src h1 h3
    obtain ⟨fr, e1, e2⟩ := ih (dst := dst + 1#32) (src := src + 1#32) (s := s1.xorByte dst src)
      (by omega) x2 (by omega)
    have ht : s1.trace = s.trace ∨ ∃ k m c d, s1.trace = .blk k m c d :: s.trace := by
      rcases refill_cases B s with ⟨-, h⟩ | ⟨-, -, h⟩ | ⟨-, -, h⟩ <;> rw [h0] at h <;> cases h
      · exact .inl rfl
      · exact .inr ⟨_, _, _, _, rfl⟩
    simp only [applyBytes, h0]
    rw [List.range_succ_eq_map, List.flatMap_cons, List.flatMap_map]
    simp only [bufAddr_succ] at e2
    rcases ht with ht | ⟨k, m, c, d, ht⟩
    · refine ⟨_, by rw [e1, State.xorByte_trace, ht]; simp only [List.reverse_cons, List.append_assoc]; rfl, ?_⟩
      simp [Transfer.access, e2]
    · refine ⟨_, by rw [e1, State.xorByte_trace, ht]; simp only [List.reverse_cons, List.append_assoc]; rfl, ?_⟩
      simp [List.filterMap_cons, Transfer.access, e2]

/-- The block requests of APPLY's bytes, in order (42_apply.md R132). -/
theorem applyBytes_blocks {B : Config.BlockFn} {n : Nat} {dst src : Word} {s : State}
    (ho : s.offset.toNat ≤ 64) (hc : s.cachedBlock B) (hn : s.pos + n ≤ streamCapacity) :
    ∃ fresh, (applyBytes B n dst src s).1.trace.reverse = s.trace.reverse ++ fresh ∧
      fresh.filter Transfer.isBlk =
        (List.range ((s.pos + n + 63) / 64 - s.counter.toNat)).map fun j =>
          .blk (onBus 256 s.key) (onBus 64 s.nonce) (s.counter + BitVec.ofNat 64 j)
            (onBus 512 (B s.key s.nonce (s.counter + BitVec.ofNat 64 j))) := by
  induction n generalizing dst src s with
  | zero =>
    have := pos_add_64 hc
    refine ⟨[], by simp [applyBytes], ?_⟩
    rw [show (s.pos + 0 + 63) / 64 - s.counter.toNat = 0 by omega]; rfl
  | succ n ih =>
    have hp64 := pos_add_64 hc
    rcases refill_spec ho hc with ⟨-, hp⟩ | ⟨s1, h0, hp, h1, h2, h3, -⟩
    · omega
    obtain ⟨x1, x2, x3⟩ := xorByte_spec dst src h1 h3
    obtain ⟨fr, e1, e2⟩ := ih (dst := dst + 1#32) (src := src + 1#32) (s := s1.xorByte dst src)
      (by omega) x2 (by omega)
    simp only [applyBytes, h0]
    rw [x1, h2, Nat.add_right_comm s.pos 1 n, Nat.add_assoc s.pos n 1] at e2
    simp only [State.xorByte_key, State.xorByte_nonce, State.xorByte_counter] at e2
    rcases refill_cases B s with ⟨-, h⟩ | ⟨-, -, h⟩ | ⟨g1, g2, h⟩ <;> rw [h0] at h <;> cases h
    · refine ⟨_, by rw [e1, State.xorByte_trace]; simp only [List.reverse_cons, List.append_assoc]; rfl, ?_⟩
      simpa [Transfer.isBlk] using e2
    · have hs := counter_succ_toNat g2
      have g1' := offset_eq_64_iff.1 g1
      refine ⟨[_, _, _] ++ fr, by
        rw [e1, State.xorByte_trace]; simp only [List.reverse_cons, List.append_assoc]; rfl, ?_⟩
      simp only [hs] at e2
      rw [show (s.pos + (n + 1) + 63) / 64 - s.counter.toNat =
        ((s.pos + (n + 1) + 63) / 64 - (s.counter.toNat + 1)) + 1 by omega, List.range_succ_eq_map]
      simp [List.filter_cons, Transfer.isBlk, e2, Function.comp_def, BitVec.ofNat_add, BitVec.add_assoc, BitVec.add_comm 1#64]
end Sys2Proof.Machine
end

