-- ==== Sys2Proof/Laws/Exec.lean ====
section
/-! SUPPORT. What a whole command answers: one lemma per outcome of NEW and APPLY (60_exceptions.md R156, R157). -/

namespace Sys2Proof.Machine

/-! ## Whole commands -/

/-- What running a whole command can answer: a refusal on a busy port or unreachable registers, or the body's state. -/
theorem runCommand_cases (s : State) (c : Option Instr) (body : State → State) :
    (s.flight ≠ none ∧ s.runCommand c body = .refused .portNotReady) ∨
    (s.flight = none ∧ s.regsLegal = false ∧ s.runCommand c body = .refused .unreachableRegisters) ∨
    (s.flight = none ∧ s.regsLegal = true ∧ s.runCommand c body = .next (body (s.accept c))) := by
  cases hf : s.flight <;> cases hr : s.regsLegal <;> simp [State.runCommand, hf, hr]

theorem runCommand_ready {s : State} (c : Option Instr) (body : State → State) (hf : s.flight = none)
    (hr : s.regsLegal = true) : s.runCommand c body = .next (body (s.accept c)) := by
  simp [State.runCommand, hf, hr]

theorem exec_new_ready {s : State} (kaddr klen naddr nlen : Word) (hf : s.flight = none)
    (hr : s.regsLegal = true) :
    exec (.new kaddr klen naddr nlen) s =
      .next (newBody kaddr klen naddr nlen (s.accept (some (.new kaddr klen naddr nlen)))) :=
  runCommand_ready _ _ hf hr

theorem exec_apply_ready {s : State} (dst dlen src slen : Word) (hf : s.flight = none)
    (hr : s.regsLegal = true) :
    exec (.apply dst dlen src slen) s =
      .next (applyBody Config.blockFn dst dlen src slen (s.accept (some (.apply dst dlen src slen)))) :=
  runCommand_ready _ _ hf hr

/-- A command answered right after its checks. -/
theorem accept_respond (s : State) (c : Option Instr) (r : Result) : (s.accept c).respond r = s.ended c r := rfl

theorem accept_raise (s : State) (c : Option Instr) (r : Result) (h : r = .counterExhausted → s.st = .dead) :
    (s.accept c).raise r = s.ended c r := by
  cases r <;> try rfl
  simp [State.raise, State.respond, State.accept, State.ended, ← h rfl]

/-- APPLY with equal lengths on a READY instance is its bytes one at a time, then the response. -/
theorem exec_apply_bytes {s : State} (dst src len : Word) (hf : s.flight = none) (hr : s.regsLegal = true)
    (hst : s.st = .ready) :
    exec (.apply dst len src len) s =
      .next (finish (applyBytes Config.blockFn len.toNat dst src
        (s.accept (some (.apply dst len src len))))) := by
  rw [exec_apply_ready _ _ _ _ hf hr,
    applyBody_ready _ _ _ _ (s.accept _) hst (offset_le_of_regsLegal hr)]

theorem exec_apply_checks {s : State} (dst dlen src slen : Word) (hf : s.flight = none)
    (hr : s.regsLegal = true) :
    (s.st = .empty → exec (.apply dst dlen src slen) s =
      .next (s.ended (some (.apply dst dlen src slen)) .noInstance)) ∧
    (s.st = .dead → exec (.apply dst dlen src slen) s =
      .next (s.ended (some (.apply dst dlen src slen)) .counterExhausted)) ∧
    (s.st = .ready → dlen ≠ slen → exec (.apply dst dlen src slen) s =
      .next (s.ended (some (.apply dst dlen src slen)) .lengthMismatch)) := by
  refine ⟨fun h => ?_, fun h => ?_, fun h hl => ?_⟩ <;> rw [exec_apply_ready _ _ _ _ hf hr] <;>
    simp only [applyBody, State.accept_st, h]
  · rw [accept_raise _ _ _ (by simp)]
  · rw [accept_raise _ _ _ (fun _ => h)]
  · rw [if_pos hl, accept_raise _ _ _ (by simp)]

theorem newLengthsValid_iff (klen nlen : Word) :
    newLengthsValid klen nlen = true ↔ klen = 32#32 ∧ nlen = 8#32 := by simp [newLengthsValid]

theorem exec_new_invalid {s : State} {kaddr klen naddr nlen : Word} (hf : s.flight = none)
    (hr : s.regsLegal = true) (h : newLengthsValid klen nlen = false) :
    exec (.new kaddr klen naddr nlen) s =
      .next (s.ended (some (.new kaddr klen naddr nlen)) .invalidKeyOrNonceSize) := by
  rw [exec_new_ready _ _ _ _ hf hr, newBody, h]
  rw [if_neg (by simp), accept_raise _ _ _ (by simp)]

theorem exec_new_valid {s : State} {kaddr naddr : Word} (hf : s.flight = none) (hr : s.regsLegal = true) :
    exec (.new kaddr 32#32 naddr 8#32) s =
      .next (((s.accept (some (.new kaddr 32#32 naddr 8#32))).construct kaddr naddr).respond .ok) :=
  exec_new_ready _ _ _ _ hf hr

@[simp] theorem ended_answered (s : State) (c : Option Instr) (r : Result) : (s.ended c r).answered r := rfl

theorem cachedBlock_accept {B : Config.BlockFn} {s : State} (c : Option Instr) (h : s.cachedBlock B) :
    (s.accept c).cachedBlock B := h

theorem finish_answered {r : State × Bool} {f : Flight} (h : r.1.flight = some f) :
    (finish r).answered (if r.2 then .ok else .counterExhausted) := by
  unfold finish State.answered State.rspData
  cases r.2 <;> simp [h]

@[simp] theorem finish_byteAt (r : State × Bool) (a : Word) : (finish r).byteAt a = r.1.byteAt a := by
  unfold finish; split <;> simp
@[simp] theorem finish_key (r : State × Bool) : (finish r).key = r.1.key := by unfold finish; split <;> simp
@[simp] theorem finish_nonce (r : State × Bool) : (finish r).nonce = r.1.nonce := by unfold finish; split <;> simp
@[simp] theorem finish_counter (r : State × Bool) : (finish r).counter = r.1.counter := by
  unfold finish; split <;> simp
@[simp] theorem finish_ksblock (r : State × Bool) : (finish r).ksblock = r.1.ksblock := by
  unfold finish; split <;> simp
@[simp] theorem finish_offset (r : State × Bool) : (finish r).offset = r.1.offset := by
  unfold finish; split <;> simp
@[simp] theorem finish_st (r : State × Bool) : (finish r).st = if r.2 then r.1.st else .dead := by
  unfold finish; split <;> simp
@[simp] theorem finish_mem (r : State × Bool) : (finish r).mem = r.1.mem := by unfold finish; split <;> simp
@[simp] theorem finish_host (r : State × Bool) : (finish r).host = r.1.host := by unfold finish; split <;> simp
@[simp] theorem finish_trace (r : State × Bool) : (finish r).trace = r.1.trace := by unfold finish; split <;> simp

end Sys2Proof.Machine
end

