-- ==== Sys2Proof/Laws/Step.lean ====
section
/-! SUPPORT. Everything a command, a micro-operation and a step can do, each said once. -/

namespace Sys2Proof.Machine

/-- Two next states that are one answer are equal. -/
theorem next_inj {φ ρ : Type} {a b : State} (h : (Host.Outcome.next a : Host.Outcome State φ ρ) = .next b) :
    b = a := (Host.Outcome.next.inj h).symm

/-! ## What a command, a micro-operation and a step can do -/

/-- What a command can do, when it answers a next state: end after its checks with nothing changed; construct an
instance; or, on a READY instance, process its bytes. -/
theorem exec_cases {i : Instr} {s t : State} (h : exec i s = .next t) :
    s.flight = none ∧ s.regsLegal = true ∧
    ((∃ r, t = s.ended (some i) r ∧ r ≠ .ok ∧ (r = .counterExhausted → s.st = .dead)) ∨
     (∃ kaddr naddr, i = .new kaddr 32#32 naddr 8#32 ∧
        t = ((s.accept (some i)).construct kaddr naddr).respond .ok) ∨
     (∃ dst src len, i = .apply dst len src len ∧ s.st = .ready ∧
        t = finish (applyBytes Config.blockFn len.toNat dst src (s.accept (some i))))) := by
  have hx : s.flight = none ∧ s.regsLegal = true := by
    cases i with
    | new ka kl na nl =>
      rcases runCommand_cases s (some (.new ka kl na nl)) (newBody ka kl na nl) with
        ⟨_, e⟩ | ⟨_, _, e⟩ | ⟨h1, h2, _⟩
      · simp [exec, execNew, e] at h
      · simp [exec, execNew, e] at h
      · exact ⟨h1, h2⟩
    | apply d dl sr sl =>
      rcases runCommand_cases s (some (.apply d dl sr sl)) (applyBody Config.blockFn d dl sr sl) with
        ⟨_, e⟩ | ⟨_, _, e⟩ | ⟨h1, h2, _⟩
      · simp [exec, execApply, execApplyWith, e] at h
      · simp [exec, execApply, execApplyWith, e] at h
      · exact ⟨h1, h2⟩
  obtain ⟨hf, hr⟩ := hx
  refine ⟨hf, hr, ?_⟩
  cases i with
  | new ka kl na nl =>
    cases hv : newLengthsValid kl nl
    · rw [exec_new_invalid hf hr hv] at h
      exact .inl ⟨_, next_inj h, by simp, by simp⟩
    · obtain ⟨rfl, rfl⟩ := (newLengthsValid_iff ..).1 hv
      rw [exec_new_valid hf hr] at h
      exact .inr (.inl ⟨_, _, rfl, next_inj h⟩)
  | apply d dl sr sl =>
    obtain ⟨c1, c2, c3⟩ := exec_apply_checks d dl sr sl hf hr
    cases hst : s.st
    · rw [c1 hst] at h; exact .inl ⟨_, next_inj h, by simp, by simp⟩
    · by_cases hl : dl = sl
      · subst hl
        rw [exec_apply_bytes _ _ _ hf hr hst] at h
        exact .inr (.inr ⟨_, _, _, rfl, rfl, next_inj h⟩)
      · rw [c3 hst hl] at h; exact .inl ⟨_, next_inj h, by simp, by simp⟩
    · rw [c2 hst] at h; exact .inl ⟨_, next_inj h, by simp, by simp⟩

/-- A command on a ready port with reachable registers answers a next state. -/
theorem exec_next (i : Instr) {s : State} (hf : s.flight = none) (hr : s.regsLegal = true) :
    ∃ t, exec i s = .next t := by
  cases i with
  | new => exact ⟨_, exec_new_ready _ _ _ _ hf hr⟩
  | apply => exact ⟨_, exec_apply_ready _ _ _ _ hf hr⟩

theorem onNew_cases {f : Flight} {run : Word → Word → Host.Outcome State Fault Refusal} {t : State}
    (h : onNew f run = .next t) :
    ∃ kaddr klen naddr nlen, f.cmd = some (.new kaddr klen naddr nlen) ∧ run kaddr naddr = .next t := by
  unfold onNew at h
  split at h
  · cases h
  · exact ⟨_, _, _, _, by assumption, h⟩
  · cases h

theorem onApply_cases {f : Flight} {run : Word → Word → Word → Host.Outcome State Fault Refusal} {t : State}
    (h : onApply f run = .next t) :
    ∃ dst dlen src slen, f.cmd = some (.apply dst dlen src slen) ∧ run dst src slen = .next t := by
  unfold onApply at h
  split at h
  · cases h
  · cases h
  · exact ⟨_, _, _, _, by assumption, h⟩

/-- What one micro-operation can do, when it answers a next state. -/
theorem microStep_cases {B : Config.BlockFn} {f : Flight} {s t : State} (h : microStep B f s = .next t) :
    s.regsLegal = true ∧
    ((f.phase = .check ∧ t = microCheck f s) ∨
     (∃ kaddr klen naddr nlen, f.phase = .construct ∧ f.cmd = some (.new kaddr klen naddr nlen) ∧
        t = microConstruct f kaddr naddr s) ∨
     (∃ dst dlen src slen, f.phase = .loop ∧ f.cmd = some (.apply dst dlen src slen) ∧
        t = microLoop B f slen s) ∨
     (∃ dst dlen src slen k, f.phase = .read k ∧ f.cmd = some (.apply dst dlen src slen) ∧
        t = microRead f src k s) ∨
     (∃ dst dlen src slen k, f.phase = .write k ∧ f.cmd = some (.apply dst dlen src slen) ∧
        microWrite f dst k s = .next t) ∨
     (∃ dst dlen src slen, f.phase = .take ∧ f.cmd = some (.apply dst dlen src slen) ∧ t = microTake f s) ∨
     (∃ w, f.phase = .respond w ∧ t = s)) := by
  cases hr : s.regsLegal
  · simp [microStep, hr] at h
  refine ⟨rfl, ?_⟩
  rw [microStep, if_pos hr] at h
  cases hp : f.phase <;> rw [hp] at h <;> simp only [microPhase] at h
  · exact .inl ⟨rfl, next_inj h⟩
  · obtain ⟨ka, kl, na, nl, hc, h⟩ := onNew_cases h
    exact .inr (.inl ⟨ka, kl, na, nl, rfl, hc, next_inj h⟩)
  · obtain ⟨d, dl, sr, sl, hc, h⟩ := onApply_cases h
    exact .inr (.inr (.inl ⟨d, dl, sr, sl, rfl, hc, next_inj h⟩))
  · obtain ⟨d, dl, sr, sl, hc, h⟩ := onApply_cases h
    exact .inr (.inr (.inr (.inl ⟨d, dl, sr, sl, _, rfl, hc, next_inj h⟩)))
  · obtain ⟨d, dl, sr, sl, hc, h⟩ := onApply_cases h
    exact .inr (.inr (.inr (.inr (.inl ⟨d, dl, sr, sl, _, rfl, hc, h⟩))))
  · obtain ⟨d, dl, sr, sl, hc, h⟩ := onApply_cases h
    exact .inr (.inr (.inr (.inr (.inr (.inl ⟨d, dl, sr, sl, rfl, hc, next_inj h⟩)))))
  · exact .inr (.inr (.inr (.inr (.inr (.inr ⟨_, rfl, next_inj h⟩)))))

/-- What SCKM's own act can do: nothing, with no command in flight; else one micro-operation. -/
theorem advance_cases {B : Config.BlockFn} {s t : State} (h : advance B s = .next t) :
    (s.flight = none ∧ t = s) ∨ ∃ f, s.flight = some f ∧ microStep B f s = .next t := by
  unfold advance at h
  split at h
  · cases h; exact .inl ⟨by assumption, rfl⟩
  · exact .inr ⟨_, by assumption, h⟩

/-- What a step can do, when it answers a next state: SCKM's own act, with the host's list as it is or one `tick`
shorter; or one of the host's acts. -/
theorem step_cases {s t : State} (h : step s = .next t) :
    (s.ownStep = true ∧ advance Config.blockFn s = .next t) ∨
    (∃ rest, s.host = .tick :: rest ∧ advance Config.blockFn (s.withHost rest) = .next t) ∨
    (∃ p rest i, s.host = .send p :: rest ∧ s.flight = none ∧ decode p = .cmd i ∧
      exec i ((s.withHost rest).log (.cmd p)) = .next t) ∨
    (∃ p rest r, s.host = .send p :: rest ∧ s.flight = none ∧ s.regsLegal = true ∧ decode p = .illegal r ∧
      t = ((s.withHost rest).log (.cmd p)).ended none .illegalCommand) ∨
    (∃ p rest, s.host = .offer p :: rest ∧ s.flight = none ∧
      t = ((s.withHost rest).log (.cmd p)).accept (packetCmd p)) ∨
    (∃ w rest, s.host = .take :: rest ∧ s.rspData = some w ∧ t = (s.withHost rest).takeResponse w) ∨
    (∃ rest, s.host = .reset :: rest ∧ t = (s.withHost rest).hardReset) ∨
    (∃ a v rest, s.host = .write a v :: rest ∧ t = hostWrite a v (s.withHost rest)) ∨
    (∃ a rest, s.host = .read a :: rest ∧ t = s.withHost rest) := by
  unfold step at h
  split at h
  · rename_i hh; exact .inl ⟨by simp [State.ownStep, hh], h⟩
  · rename_i p rest hh
    split at h
    · rename_i hc
      have hf : s.flight = none := Option.isNone_iff_eq_none.1 hc
      split at h
      · exact .inr (.inr (.inl ⟨_, _, _, hh, hf, by assumption, h⟩))
      · rename_i r hd
        rcases runCommand_cases ((s.withHost rest).log (.cmd p)) none (fun u => u.raise .illegalCommand) with
          ⟨-, e⟩ | ⟨-, -, e⟩ | ⟨h1, h2, e⟩
        · simp [execIllegal, e] at h
        · simp [execIllegal, e] at h
        · rw [execIllegal, e] at h; cases h
          refine .inr (.inr (.inr (.inl ⟨p, rest, r, hh, hf, h2, hd, ?_⟩)))
          rw [accept_raise _ _ _ (by simp)]
    · rename_i hc; exact .inl ⟨by simp [State.ownStep, hh, hc], h⟩
  · rename_i p rest hh
    split at h
    · rename_i hc
      cases h
      exact .inr (.inr (.inr (.inr (.inl ⟨p, rest, hh, Option.isNone_iff_eq_none.1 hc, rfl⟩))))
    · rename_i hc; exact .inl ⟨by simp [State.ownStep, hh, hc], h⟩
  · exact .inr (.inl ⟨_, by assumption, h⟩)
  · rename_i rest hh
    split at h
    · cases h
      exact .inr (.inr (.inr (.inr (.inr (.inl ⟨_, rest, hh, by assumption, rfl⟩)))))
    · rename_i hc; exact .inl ⟨by simp [State.ownStep, hh, hc], h⟩
  · cases h
    exact .inr (.inr (.inr (.inr (.inr (.inr (.inl ⟨_, by assumption, rfl⟩))))))
  · rename_i a v rest hh
    exact .inr (.inr (.inr (.inr (.inr (.inr (.inr (.inl ⟨a, v, rest, hh, next_inj h⟩)))))))
  · rename_i a rest hh
    exact .inr (.inr (.inr (.inr (.inr (.inr (.inr (.inr ⟨a, rest, hh, next_inj h⟩)))))))

/-- What the checks of a command in flight can do (60_exceptions.md R156). -/
theorem microCheck_cases (f : Flight) (s : State) :
    (∃ r, r ≠ .ok ∧ (r = .counterExhausted → s.st = .dead) ∧ microCheck f s = s.raise r) ∨
    (∃ kaddr naddr, f.cmd = some (.new kaddr 32#32 naddr 8#32) ∧ microCheck f s = s.goto f .construct) ∨
    (∃ dst src len, f.cmd = some (.apply dst len src len) ∧ s.st = .ready ∧
      microCheck f s = s.goto f .loop) := by
  unfold microCheck
  split
  · exact .inl ⟨_, by simp, by simp, rfl⟩
  · split
    · rename_i hc hv
      obtain ⟨rfl, rfl⟩ := (newLengthsValid_iff ..).1 hv
      exact .inr (.inl ⟨_, _, hc, rfl⟩)
    · exact .inl ⟨_, by simp, by simp, rfl⟩
  · split
    · exact .inl ⟨_, by simp, by simp, rfl⟩
    · rename_i hst; exact .inl ⟨_, by simp, fun _ => hst, rfl⟩
    · rename_i hst
      split
      · exact .inl ⟨_, by simp, by simp, rfl⟩
      · rename_i hc _ hl
        rw [not_not] at hl; subst hl
        exact .inr (.inr ⟨_, _, _, hc, hst, rfl⟩)

/-- What the head of the loop can do (42_apply.md R123). -/
theorem microLoop_cases (B : Config.BlockFn) (f : Flight) (len : Word) (s : State) :
    (¬f.cur < len ∧ microLoop B f len s = s.respond .ok) ∨
    (f.cur < len ∧ s.offset = 64#7 ∧ s.counter = Config.counterMax ∧
      microLoop B f len s = s.raise .counterExhausted) ∨
    (f.cur < len ∧ s.offset = 64#7 ∧ s.counter ≠ Config.counterMax ∧
      microLoop B f len s =
        { s with
          counter := s.counter + 1#64
          ksblock := B s.key s.nonce s.counter
          offset := 0#7
          trace := .blk (onBus 256 s.key) (onBus 64 s.nonce) s.counter
            (onBus 512 (B s.key s.nonce s.counter)) :: s.trace }) ∨
    (f.cur < len ∧ s.offset ≠ 64#7 ∧
      microLoop B f len s = s.goto { f with n := s.runLen (len - f.cur) } (.read 0)) := by
  unfold microLoop
  by_cases hc : f.cur < len
  · by_cases ho : s.offset = 64#7
    · by_cases hm : s.counter = Config.counterMax
      · exact .inr (.inl ⟨hc, ho, hm, by simp [hc, State.pbbExhausted, ho, gen_exhausted B s hm]⟩)
      · refine .inr (.inr (.inl ⟨hc, ho, hm, ?_⟩))
        rw [if_pos hc, if_pos (by simp [State.pbbExhausted, ho]), gen_eq B s hm]
    · exact .inr (.inr (.inr ⟨hc, ho, by rw [if_pos hc, if_neg (by simp [State.pbbExhausted, ho])]⟩))
  · exact .inl ⟨hc, by rw [if_neg hc]⟩

/-- What a write of a run does, when it answers a next state (40_units_microops.md R97). -/
theorem microWrite_cases {f : Flight} {dst : Word} {k : Nat} {s t : State} (h : microWrite f dst k s = .next t) :
    ∃ hk : s.offset.toNat + k < 64,
      t = (s.memWrite (dst + f.cur + BitVec.ofNat 32 k) (f.data ^^^ s.ksblock[s.offset.toNat + k])).goto
        { f with held := ((dst + f.cur + BitVec.ofNat 32 k).toNat, s.byteAt (dst + f.cur + BitVec.ofNat 32 k)) :: f.held }
        (if k + 1 < f.n then .read (k + 1) else .take) := by
  unfold microWrite at h
  split at h
  · cases h; exact ⟨by assumption, rfl⟩
  · cases h

/-! ## Data races (20_memory.md R62) -/

/-- With no race a read returns the byte in memory. -/
@[simp] theorem raceByte_quiet {s : State} {f : Flight} (h : f.raced = []) (k : Nat) (a : Word) :
    s.raceByte f k a = s.byteAt a := by
  simp [State.raceByte, h]

/-- With no race nothing is drawn. -/
@[simp] theorem draw_quiet {s : State} {f : Flight} (h : f.raced = []) : s.draw f = s := by
  simp [State.draw, h]

/-- `anyOf` is one of its bytes. -/
theorem anyOf_mem (now : Byte) (before : List Byte) (choice : Nat) :
    anyOf now before choice = now ∨ anyOf now before choice ∈ before := by
  have hlt : choice % (before.length + 1) < (now :: before).length := by
    simpa using Nat.mod_lt choice (Nat.succ_pos before.length)
  rw [anyOf, List.getD_eq_getElem _ _ hlt]
  exact List.mem_cons.1 (List.getElem_mem hlt)

/-- A racing read returns a byte that the location holds or held while the command is in flight. -/
theorem raceByte_held (s : State) (f : Flight) (k : Nat) (a : Word) :
    s.raceByte f k a = s.byteAt a ∨ (a ∈ f.raced ∧ (a.toNat, s.raceByte f k a) ∈ f.held) := by
  by_cases ha : a ∈ f.raced
  · simp only [State.raceByte, ha, if_true, true_and]
    rcases anyOf_mem (s.byteAt a) ((f.held.filter fun c => c.1 = a.toNat).map (·.2)) (Config.raceChoice s.draws k)
      with h | h
    · exact .inl h
    · obtain ⟨c, hc, e⟩ := List.mem_map.1 h
      obtain ⟨hc, he⟩ := List.mem_filter.1 hc
      rw [← e, show (a.toNat, c.2) = c from Prod.ext (of_decide_eq_true he).symm rfl]
      exact .inr hc
  · exact .inl (by simp [State.raceByte, ha])

/-- Another agent's write gives the byte its value (20_memory.md R56). -/
theorem hostWrite_byteAt_same (a : Word) (v : Byte) (s : State) : (hostWrite a v s).byteAt a = v := by
  rw [State.byteAt, hostWrite_mem, Memory.read_write_same]

/-- Another agent's write leaves every other byte alone. -/
theorem hostWrite_byteAt_other {a b : Word} (v : Byte) (s : State) (h : b ≠ a) :
    (hostWrite a v s).byteAt b = s.byteAt b := by
  rw [State.byteAt, hostWrite_mem]
  exact Memory.read_write_other _ _ fun e => h (BitVec.eq_of_toNat_eq e)

/-- Another agent's write keeps memory canonical. -/
theorem hostWrite_wf {s : State} (a : Word) (v : Byte) (h : s.mem.wf) : (hostWrite a v s).mem.wf := by
  rw [hostWrite_mem]; exact Memory.write_wf _ (BitVec.isLt _) h

end Sys2Proof.Machine
end

