-- ==== Sys2Proof/Laws/Micro.lean ====
section
/-! SUPPORT. Micro-operations of a command in flight, chained: the reads and writes of a run are `xorBytes`
(40_units_microops.md R97). -/

namespace Sys2Proof.Machine

/-- An instance with `OFFSET` in range has registers that can occur (10_state.md R32). -/
theorem legal_of {s : State} (h : s.offset.toNat ≤ 64) (h2 : s.st ≠ .empty) : s.regsLegal = true := by
  simp [State.regsLegal, h, h2]

/-- Micro-operations compose. -/
theorem advanceMany_add {B : Config.BlockFn} {k m : Nat} {s t : State} (h : advanceMany B k s = .next t) :
    advanceMany B (k + m) s = advanceMany B m t := by
  induction k generalizing s with
  | zero => simp only [advanceMany] at h; rw [Nat.zero_add, next_inj h]
  | succ k ih =>
    rw [show k + 1 + m = (k + m) + 1 by omega]
    simp only [advanceMany] at h ⊢
    cases ha : advance B s <;> simp only [ha] at h ⊢
    · exact ih h
    · cases h
    · cases h

/-- The state with a flight put into it. -/
def State.flying (s : State) (f : Flight) : State := { s with flight := some f }

/-- The flight of an APPLY that is past its checks and has met no race. -/
def applyFlight (d l sr cur : Word) (n : Nat) (data : Byte) (held : List Host.Cell) (p : Phase) : Flight :=
  { cmd := some (.apply d l sr l), cur := cur, n := n, data := data, phase := p, held := held }

theorem advance_flying {B : Config.BlockFn} {s : State} (f : Flight) (hr : s.regsLegal = true) :
    advance B (s.flying f) = microPhase B f (s.flying f) f.phase :=
  if_pos (show (s.flying f).regsLegal = true from hr)

theorem advanceMany_succ {B : Config.BlockFn} {s t : State} {k : Nat} (h : advance B s = .next t) :
    advanceMany B (k + 1) s = advanceMany B k t := by simp only [advanceMany, h]

/-- The read of byte `k` of a run that has met no race. -/
theorem advance_read {B : Config.BlockFn} {d l sr cur : Word} {n k : Nat} {data : Byte} {held : List Host.Cell}
    {s : State} (hr : s.regsLegal = true) :
    advance B (s.flying (applyFlight d l sr cur n data held (.read k))) =
      .next ((s.memRead (sr + cur + BitVec.ofNat 32 k)).2.flying
        (applyFlight d l sr cur n (s.byteAt (sr + cur + BitVec.ofNat 32 k)) held (.write k))) := by
  rw [advance_flying _ hr]
  show Host.Outcome.next (microRead _ _ _ _) = _
  simp only [microRead, applyFlight, raceByte_quiet, draw_quiet]
  rfl

/-- The write of byte `k` of a run: the byte it overwrites is kept. -/
theorem advance_write {B : Config.BlockFn} {d l sr cur : Word} {n k : Nat} {data : Byte} {held : List Host.Cell}
    {s : State} (hr : s.regsLegal = true) (h : s.offset.toNat + k < 64) :
    ∃ held', advance B (s.flying (applyFlight d l sr cur n data held (.write k))) =
      .next ((s.memWrite (d + cur + BitVec.ofNat 32 k) (data ^^^ s.ksblock[s.offset.toNat + k])).flying
        (applyFlight d l sr cur n data held' (if k + 1 < n then .read (k + 1) else .take))) := by
  refine ⟨((d + cur + BitVec.ofNat 32 k).toNat, s.byteAt (d + cur + BitVec.ofNat 32 k)) :: held,
    (advance_flying _ hr).trans ?_⟩
  exact dif_pos (show (s.flying (applyFlight d l sr cur n data held (.write k))).offset.toNat + k < 64 from h)

/-- The bytes of a run from byte `k` on, with no race, are `xorBytes` (40_units_microops.md R97). -/
theorem run_bytes {B : Config.BlockFn} {d l sr : Word} (m : Nat) :
    ∀ (k : Nat) (s : State) (cur : Word) (n : Nat) (data : Byte) (held : List Host.Cell),
    s.st = .ready → s.offset.toNat ≤ 64 → s.offset.toNat + n ≤ 64 → k + m + 1 = n →
    ∃ data' held', advanceMany B (2 * (m + 1)) (s.flying (applyFlight d l sr cur n data held (.read k))) =
      .next ((xorBytes ((s.ksblock.toList.drop (s.offset.toNat + k)).take (m + 1)) (d + cur + BitVec.ofNat 32 k)
        (sr + cur + BitVec.ofNat 32 k) s).flying (applyFlight d l sr cur n data' held' .take)) := by
  induction m with
  | zero =>
    intro k s cur n data held hst ho hn hk
    have hlt : s.offset.toNat + k < 64 := by omega
    have hlen : s.offset.toNat + k < s.ksblock.toList.length := by simpa using hlt
    have hr := legal_of ho (s := s) (by simp [hst])
    obtain ⟨held', e⟩ := advance_write (B := B) (d := d) (l := l) (sr := sr) (cur := cur) (n := n) (k := k)
      (data := s.byteAt (sr + cur + BitVec.ofNat 32 k)) (held := held)
      (s := (s.memRead (sr + cur + BitVec.ofNat 32 k)).2) hr hlt
    refine ⟨s.byteAt (sr + cur + BitVec.ofNat 32 k), held', ?_⟩
    rw [show 2 * (0 + 1) = 0 + 1 + 1 by rfl, advanceMany_succ (advance_read hr), advanceMany_succ e,
      List.drop_eq_getElem_cons hlen, if_neg (show ¬ (k + 1 < n) by omega)]
    rfl
  | succ m ih =>
    intro k s cur n data held hst ho hn hk
    have hlt : s.offset.toNat + k < 64 := by omega
    have hlen : s.offset.toNat + k < s.ksblock.toList.length := by simpa using hlt
    have hr := legal_of ho (s := s) (by simp [hst])
    obtain ⟨held1, e1⟩ := advance_write (B := B) (d := d) (l := l) (sr := sr) (cur := cur) (n := n) (k := k)
      (data := s.byteAt (sr + cur + BitVec.ofNat 32 k)) (held := held)
      (s := (s.memRead (sr + cur + BitVec.ofNat 32 k)).2) hr hlt
    let s2 := (s.memRead (sr + cur + BitVec.ofNat 32 k)).2.memWrite (d + cur + BitVec.ofNat 32 k)
      (s.byteAt (sr + cur + BitVec.ofNat 32 k) ^^^ s.ksblock.toList[s.offset.toNat + k])
    obtain ⟨data', held', e⟩ :=
      ih (k + 1) s2 cur n (s.byteAt (sr + cur + BitVec.ofNat 32 k)) held1 hst ho hn (by omega)
    refine ⟨data', held', ?_⟩
    rw [show 2 * (m + 1 + 1) = (2 * (m + 1)) + 1 + 1 by omega, advanceMany_succ (advance_read hr), advanceMany_succ e1,
      List.drop_eq_getElem_cons hlen, List.take_succ_cons, xorBytes_cons, if_pos (show k + 1 < n by omega)]
    have e2 : ∀ a : Word, a + BitVec.ofNat 32 (k + 1) = a + BitVec.ofNat 32 k + 1#32 := by
      intro a; rw [BitVec.ofNat_add, BitVec.add_assoc]
    rw [e2, e2] at e
    exact e

theorem xorBytes_flying (f : Flight) (ks : List Byte) (d sr : Word) (s : State) :
    xorBytes ks d sr (s.flying f) = (xorBytes ks d sr s).flying f := by
  induction ks generalizing d sr s with
  | nil => rfl
  | cons k ks ih => exact ih (d + 1#32) (sr + 1#32) ((s.memRead sr).2.memWrite d (s.byteAt sr ^^^ k))

theorem xorBytes_regs (ks : List Byte) (d sr : Word) (s : State) :
    (xorBytes ks d sr s).st = s.st ∧ (xorBytes ks d sr s).offset = s.offset := by
  induction ks generalizing d sr s with
  | nil => exact ⟨rfl, rfl⟩
  | cons k ks ih => exact ih (d + 1#32) (sr + 1#32) ((s.memRead sr).2.memWrite d (s.byteAt sr ^^^ k))

end Sys2Proof.Machine
end

