-- ==== Sys2Proof/Laws/PerInstr.lean ====
section
/-! SUPPORT. Statements made per instruction. Family Header: the header word of every command's packet (30_encoding.md R71,
R75). -/

namespace Sys2Proof.Laws.Header

/-- The packet of a command has reserved bits zero, its own opcode, and the operand words in word order
(30_encoding.md R71 to R73). -/
def Statement (i : Instr) : Prop :=
  packetRsv (encode i) = 0#24 ∧
    match i with
    | .new kaddr klen naddr nlen =>
      packetOpc (encode i) = 0x01#8 ∧ packetWord (encode i) 1 = kaddr ∧ packetWord (encode i) 2 = klen ∧
        packetWord (encode i) 3 = naddr ∧ packetWord (encode i) 4 = nlen
    | .apply dst dlen src slen =>
      packetOpc (encode i) = 0x02#8 ∧ packetWord (encode i) 1 = dst ∧ packetWord (encode i) 2 = dlen ∧
        packetWord (encode i) 3 = src ∧ packetWord (encode i) 4 = slen

theorem new (kaddr klen naddr nlen : Word) : Statement (.new kaddr klen naddr nlen) := by
  obtain ⟨h0, h1, h2, h3, h4⟩ := packetWord_packetOf 0x00000001#32 kaddr klen naddr nlen
  simp only [Statement, packetRsv, packetOpc, encode, h0, h1, h2, h3, h4]
  decide

theorem apply (dst dlen src slen : Word) : Statement (.apply dst dlen src slen) := by
  obtain ⟨h0, h1, h2, h3, h4⟩ := packetWord_packetOf 0x00000002#32 dst dlen src slen
  simp only [Statement, packetRsv, packetOpc, encode, h0, h1, h2, h3, h4]
  decide

end Sys2Proof.Laws.Header
end

