-- ==== Sys2Proof/Tests/Slice0.lean ====
section
/-! SUPPORT. The model's own tests: the WellFormed smoke, words written out from the encoding, two steps for each
command with numbers of 95_test_vectors.md, and for every obligation with hypotheses a state and operands that meet
them. -/

open Sys2Proof Sys2Proof.Machine Host

namespace Sys2Proof.Tests

/-! ## WellFormed (30_encoding.md R82): one ill-formed term for each check -/

theorem test_new_kaddr_too_large : Asm.wellFormed (.new 0x100000000 32 0x1020 8) = false := by decide
theorem test_new_klen_too_large : Asm.wellFormed (.new 0x1000 0x100000020 0x1020 8) = false := by decide
theorem test_new_naddr_too_large : Asm.wellFormed (.new 0x1000 32 0x100000000 8) = false := by decide
theorem test_new_nlen_too_large : Asm.wellFormed (.new 0x1000 32 0x1020 0x100000008) = false := by decide
theorem test_apply_dst_too_large : Asm.wellFormed (.apply 0x100000000 4 0x2000 4) = false := by decide
theorem test_apply_dlen_too_large : Asm.wellFormed (.apply 0x3000 0x100000004 0x2000 4) = false := by decide
theorem test_apply_src_too_large : Asm.wellFormed (.apply 0x3000 4 0x100000000 4) = false := by decide
theorem test_apply_slen_too_large : Asm.wellFormed (.apply 0x3000 4 0x2000 0x100000004) = false := by decide
theorem test_xorks_dst_too_large : Asm.wellFormed (.xorks 0x100000000 0x2000 4) = false := by decide
theorem test_xorks_src_too_large : Asm.wellFormed (.xorks 0x3000 0x100000000 4) = false := by decide
theorem test_xorks_len_too_large : Asm.wellFormed (.xorks 0x3000 0x2000 0x100000000) = false := by decide
theorem test_xorip_buf_too_large : Asm.wellFormed (.xorip 0x100000000 4) = false := by decide
theorem test_xorip_len_too_large : Asm.wellFormed (.xorip 0x3000 0x100000000) = false := by decide
theorem test_newk_kaddr_too_large : Asm.wellFormed (.newk 0x100000000 0x1020) = false := by decide
theorem test_newk_naddr_too_large : Asm.wellFormed (.newk 0x1000 0x100000000) = false := by decide
theorem test_largest_operands : Asm.wellFormed (.apply 0xFFFFFFFF 0xFFFFFFFF 0xFFFFFFFF 0xFFFFFFFF) = true := by decide
theorem test_nop_well_formed : Asm.wellFormed .nop = true := by decide

/-! ## Decoding: words written out from 30_encoding.md R71 to R73, R82 and 95_test_vectors.md C1 -/

/-- `00000001 00001000 00000020 00001020 00000008`, with `W0` bit by bit: `RSV` 24 zeros, `OPC` 0000_0001. -/
theorem test_decode_new :
    decode (0x00000008#32 ++ 0x00001020#32 ++ 0x00000020#32 ++ 0x00001000#32 ++ 0b000000000000000000000000#24 ++
      0b00000001#8) = .cmd (.new 0x1000#32 32#32 0x1020#32 8#32) := by decide

/-- `00000002 00003000 0000001E 00002000 0000001E`, with `W0` bit by bit. -/
theorem test_decode_apply :
    decode (0x0000001E#32 ++ 0x00002000#32 ++ 0x0000001E#32 ++ 0x00003000#32 ++ 0b000000000000000000000000#24 ++
      0b00000010#8) = .cmd (.apply 0x3000#32 30#32 0x2000#32 30#32) := by decide

theorem test_decode_all_ones_operands :
    decode 0xFFFFFFFF_FFFFFFFF_FFFFFFFF_FFFFFFFF_00000002#160 =
      .cmd (.apply 0xFFFFFFFF#32 0xFFFFFFFF#32 0xFFFFFFFF#32 0xFFFFFFFF#32) := by decide

theorem test_decode_zero : decode 0#160 = .illegal .unusedOpcode := by decide
theorem test_decode_opcode_255 : decode 0xFF#160 = .illegal .unusedOpcode := by decide
theorem test_decode_low_reserved_bit :
    decode 0x00000008_00001020_00000020_00001000_00000101#160 = .illegal .reservedBits := by decide
theorem test_decode_high_reserved_bit :
    decode 0x00000004_00002000_00000004_00003000_80000002#160 = .illegal .reservedBits := by decide

/-- Bit 32 of the table's numbering is bit 0 of `W1` (30_encoding.md R70). -/
theorem test_table_numbering :
    decodeTableWord 160 0x00000008_00001020_00000020_00001000_00000001 =
      some (.new 0x1000#32 32#32 0x1020#32 8#32) := by decide

/-- The packet of P1's command 3 (95_test_vectors.md D), by the assembler. -/
theorem test_assemble_xorks :
    encode (assemble (.xorks 0x301E 0x201E 34)) = 0x00000022_0000201E_00000022_0000301E_00000002#160 := by decide

/-! ## Two steps for each command -/

/-- Memory from a list of bytes at consecutive addresses. -/
def bytesAt (a : Nat) : List Byte → Memory → Memory
  | [], m => m
  | b :: bs, m => bytesAt (a + 1) bs (m.write a b)

/-- The memory of 95_test_vectors.md C3. -/
def keyMemory : Memory :=
  bytesAt 0x1000 ((List.range 32).map (BitVec.ofNat 8)) (bytesAt 0x1020 ((List.range 8).map fun j => BitVec.ofNat 8 (0xA0 + j)) [])

/-- The response, and where the instance stands. -/
def summary : Outcome State Fault Refusal → Option (Option Word × Status × BitVec 64 × BitVec 7)
  | .next t => some (t.rspData, t.st, t.counter, t.offset)
  | _ => none

/-- The bytes of memory from `a` on. -/
def memoryOf (o : Outcome State Fault Refusal) (a : Word) (n : Nat) : Option (List Byte) :=
  match o with
  | .next t => some (t.bufferBytes a n)
  | _ => none

/-- The key and the nonce after a command. -/
def secrets : Outcome State Fault Refusal → Option (List Byte × List Byte)
  | .next t => some (t.key.toList, t.nonce.toList)
  | _ => none

/-- V-NEW-1: `KEY[j] = j`, `NONCE[j] = 0xA0 + j`, counter 0, offset 64. -/
theorem test_new_loads :
    let o := exec (.new 0x1000#32 32#32 0x1020#32 8#32) { State.reset with mem := keyMemory }
    summary o = some (some 0x00000000#32, .ready, 0#64, 64#7) ∧
      secrets o = some ((List.range 32).map (BitVec.ofNat 8), (List.range 8).map fun j => BitVec.ofNat 8 (0xA0 + j)) := by
  decide

/-- V-NEW-2: a key length of 31. -/
theorem test_new_short_key :
    summary (exec (.new 0x1000#32 31#32 0x1020#32 8#32) State.reset) = some (some 0x00000001#32, .empty, 0#64, 64#7) := by
  decide

/-- The stand-in block function `TBLK` (95_test_vectors.md B). -/
def tblk : Config.BlockFn := fun key nonce c =>
  Vector.ofFn fun j : Fin 64 =>
    BitVec.ofNat 8 (64 * c.toNat + j.val) ^^^ key[j.val % 32]'(Nat.mod_lt _ (by decide)) ^^^
      nonce[j.val % 8]'(Nat.mod_lt _ (by decide))

/-- (`READY`, 0, 64) with zero key and nonce (95_test_vectors.md C4). -/
def fresh : State := { State.reset with st := .ready }

/-- R139's shape over TBLK: two bytes of block 0, `3E 3F`, then two of block 1, `40 41`, with source `01 02 03 04`. -/
theorem test_apply_crosses_a_block :
    let o := execApplyWith tblk 0x3000#32 4#32 0x2000#32 4#32
      { fresh with counter := 1#64, offset := 62#7, ksblock := tblk (Bytes.zero 32) (Bytes.zero 8) 0#64,
                   mem := bytesAt 0x2000 [1, 2, 3, 4] [] }
    summary o = some (some 0x00000000#32, .ready, 2#64, 2#7) ∧
      memoryOf o 0x3000#32 4 = some [0x3F, 0x3D, 0x43, 0x45] := by decide

/-- V-OVL: the destination runs one byte ahead of the source. -/
theorem test_apply_partial_overlap :
    memoryOf (execApplyWith tblk 0x2001#32 4#32 0x2000#32 4#32
      { fresh with mem := bytesAt 0x2000 [0x10, 0x20, 0x30, 0x40, 0x99] [] }) 0x2000#32 5 =
      some [0x10, 0x10, 0x11, 0x13, 0x10] := by decide

/-! ## States for the witnesses -/

/-- (`READY`, 2^64 - 1, `offset`): the last block is cached. -/
def last (offset : BitVec 7) : State :=
  { fresh with
    counter := Config.counterMax
    ksblock := Config.blockFn (Bytes.zero 32) (Bytes.zero 8) 0xFFFFFFFFFFFFFFFE#64
    offset := offset }

/-- (`DEAD`, 2^64 - 1, 64). -/
def dead : State := { last 64#7 with st := .dead }

/-- An APPLY of five bytes in flight, its fourth byte next to be written. -/
def midApply : State :=
  { last 10#7 with
    flight := some { cmd := some (.apply 0x3000#32 5#32 0x2000#32 5#32), cur := 0#32, n := 5, data := 0x55#8,
                     phase := .write 3 } }

/-- The packet of `NEW 0x1000, 32, 0x1020, 8`. -/
abbrev newPacket : Packet := 0x00000008_00001020_00000020_00001000_00000001#160

/-- The packet of `APPLY 0x3000, 4, 0x2000, 4`. -/
abbrev applyPacket : Packet := 0x00000004_00002000_00000004_00003000_00000002#160

/-- A packet whose opcode is 0x07. -/
abbrev illegalPacket : Packet := 0x07#160

theorem fresh_cached : fresh.cachedBlock Config.blockFn := ⟨fun _ => ⟨rfl, rfl⟩, fun h => absurd rfl h⟩

theorem last_cached (o : BitVec 7) : (last o).cachedBlock Config.blockFn :=
  ⟨fun h => absurd (show Config.counterMax = 0#64 from h) (by decide),
    fun _ => congrArg (Config.blockFn (Bytes.zero 32) (Bytes.zero 8))
      (show 0xFFFFFFFFFFFFFFFE#64 = Config.counterMax - 1#64 by decide)⟩

/-! ## Witnesses -/

theorem witness_HeaderWordDecidesTheCommand :
    packetWord newPacket 0 = 0x00000001#32 ∧ packetWord applyPacket 0 = 0x00000002#32 ∧
      (packetWord illegalPacket 0 ≠ 0x00000001#32 ∧ packetWord illegalPacket 0 ≠ 0x00000002#32) ∧
      packetWord (illegalPacket ||| (1#160 <<< 159)) 0 = packetWord illegalPacket 0 := by decide

theorem witness_StepRunsTheDecodedCommand :
    let s := { State.reset with host := [.send newPacket] }
    s.host = .send newPacket :: [] ∧ s.flight = none ∧
      decode newPacket = .cmd (.new 0x1000#32 32#32 0x1020#32 8#32) := by decide

theorem witness_OfferedPacketIsLatched_command :
    let s := { fresh with host := [.offer applyPacket] }
    s.host = .offer applyPacket :: [] ∧ s.flight = none ∧
      decode applyPacket = .cmd (.apply 0x3000#32 4#32 0x2000#32 4#32) := by decide

theorem witness_OfferedPacketIsLatched_illegal :
    let s := { fresh with host := [.offer illegalPacket] }
    s.host = .offer illegalPacket :: [] ∧ s.flight = none ∧ decode illegalPacket = .illegal .unusedOpcode ∧
      s.regsLegal = true := by decide

theorem witness_IllegalPacketIsAnswered :
    let s := { dead with host := [.send illegalPacket] }
    s.host = .send illegalPacket :: [] ∧ s.flight = none ∧ s.regsLegal = true ∧
      packetWord illegalPacket 0 ≠ 0x00000001#32 ∧ packetWord illegalPacket 0 ≠ 0x00000002#32 := by
  refine ⟨rfl, rfl, ?_, ?_, ?_⟩ <;> decide

theorem witness_ResetAbandonsTheCommand :
    { midApply with host := [.reset] }.host = .reset :: [] ∧ midApply.flight.isSome = true := by
  exact ⟨rfl, rfl⟩

theorem witness_BusyPortTakesNoPacket :
    ∃ f, midApply.flight = some f ∧
      ({ midApply with host := [.send newPacket] }.host = .send newPacket :: [] ∧
        { midApply with host := [.offer newPacket] }.host = .offer newPacket :: []) := ⟨_, rfl, rfl, rfl⟩

theorem witness_TakingTheResponseFreesThePort :
    let s := { State.reset.ended none .illegalCommand with host := [.take] }
    s.host = .take :: [] ∧ s.rspData = some 0x00000004#32 := by decide

/-- A NEW in flight at its construction, one key byte raced. -/
def midNew : State :=
  { fresh with
    mem := keyMemory
    flight := some { cmd := some (.new 0x1000#32 32#32 0x1020#32 8#32), cur := 0#32, n := 0, data := 0#8,
                     phase := .construct, raced := [0x1001#32], held := [(0x1001, 0x77#8)] } }

/-- An APPLY in place, two source bytes raced, byte `k` next to be read. -/
def racedApply (k : Nat) : State :=
  { fresh with
    offset := 60#7
    counter := 1#64
    mem := bytesAt 0x2000 [0x11, 0x22, 0x33, 0x44] []
    flight := some { cmd := some (.apply 0x2000#32 4#32 0x2000#32 4#32), cur := 0#32, n := 4, data := 0#8,
                     phase := .read k, raced := [0x2003#32, 0x2001#32],
                     held := [(0x2003, 0xAA#8), (0x2001, 0xBB#8), (0x2003, 0xCC#8)] } }

/-- Each clause: no command in flight, an illegal packet, a NEW and an APPLY; both kinds of buffer at their first and last
byte, and one byte past them. -/
theorem witness_OtherAgentsAccessIsPerformed :
    { midApply with host := [.read 0x3004#32] }.host = .read 0x3004#32 :: [] ∧
      { midApply with host := [.write 0x2000#32 1#8] }.host = .write 0x2000#32 1#8 :: [] ∧
      fresh.flight = none ∧
      (∃ f, (fresh.accept none).flight = some f ∧ f.cmd = none) ∧
      (∃ f, midNew.flight = some f ∧ f.cmd = some (.new 0x1000#32 32#32 0x1020#32 8#32)) ∧
      (∃ f, midApply.flight = some f ∧ f.cmd = some (.apply 0x3000#32 5#32 0x2000#32 5#32)) ∧
      inBuffer 0x1000#32 32#32 0x1000#32 = true ∧ inBuffer 0x1000#32 32#32 0x101F#32 = true ∧
      inBuffer 0x1000#32 32#32 0x1020#32 = false ∧ inBuffer 0x1020#32 8#32 0x1027#32 = true ∧
      inBuffer 0x1020#32 8#32 0x1028#32 = false ∧ inBuffer 0x2000#32 5#32 0x2000#32 = true ∧
      inBuffer 0x2000#32 5#32 0x2005#32 = false ∧ inBuffer 0x3000#32 5#32 0x3004#32 = true ∧
      inBuffer 0x3000#32 5#32 0x3005#32 = false :=
  ⟨rfl, rfl, rfl, ⟨_, rfl, rfl⟩, ⟨_, rfl, rfl⟩, ⟨_, rfl, rfl⟩, by decide⟩

/-- A raced and an unraced byte, for the read of an APPLY and for the loads of a NEW. -/
theorem witness_RacingReadReturnsAByteHeld :
    (∃ f, (racedApply 1).flight = some f ∧ (racedApply 1).regsLegal = true ∧
      f.cmd = some (.apply 0x2000#32 4#32 0x2000#32 4#32) ∧ f.phase = .read 1 ∧
      0x2000#32 + f.cur + BitVec.ofNat 32 1 ∈ f.raced) ∧
    (∃ f, (racedApply 0).flight = some f ∧ (racedApply 0).regsLegal = true ∧
      f.cmd = some (.apply 0x2000#32 4#32 0x2000#32 4#32) ∧ f.phase = .read 0 ∧
      0x2000#32 + f.cur + BitVec.ofNat 32 0 ∉ f.raced) ∧
    (∃ f, midNew.flight = some f ∧ midNew.regsLegal = true ∧
      f.cmd = some (.new 0x1000#32 32#32 0x1020#32 8#32) ∧ f.phase = .construct ∧
      bufAddr 0x1000#32 1 ∈ f.raced ∧ bufAddr 0x1000#32 0 ∉ f.raced ∧ bufAddr 0x1020#32 0 ∉ f.raced) :=
  ⟨⟨_, rfl, by decide, rfl, rfl, by decide⟩, ⟨_, rfl, by decide, rfl, rfl, by decide⟩,
    ⟨_, rfl, by decide, rfl, rfl, by decide⟩⟩

/-- 93_implementation_defined.md U9, "never a single fixed value": of the bytes a location held, each is the answer of
some choice. -/
theorem test_race_takes_each_byte :
    (List.range 3).map (anyOf 0x44#8 [0xAA#8, 0xCC#8]) = [0x44#8, 0xAA#8, 0xCC#8] := by decide

theorem witness_IdleHoldsTheState : fresh.host = [] ∧ fresh.flight = none := by decide

theorem witness_GenStoresTheNextBlock :
    (last 64#7).counter = 0xFFFFFFFFFFFFFFFF#64 ∧
      { fresh with counter := 0xFFFFFFFFFFFFFFFE#64 }.counter ≠ 0xFFFFFFFFFFFFFFFF#64 ∧
      fresh.counter ≠ 0xFFFFFFFFFFFFFFFF#64 := ⟨rfl, by decide, by decide⟩

theorem witness_RunLengthFitsTheBlock :
    (({ fresh with offset := 63#7 }.offset.toNat < 64 ∧ 1 ≤ (0xFFFFFFFF#32 : Word).toNat)) ∧
      ({ fresh with offset := 0#7 }.offset.toNat < 64 ∧ 1 ≤ (1#32 : Word).toNat) := by decide

theorem witness_XorRunIsTheByteLoop :
    { fresh with offset := 0#7 }.offset.toNat + 63 < 64 ∧ { fresh with offset := 63#7 }.offset.toNat + 0 < 64 := by
  decide

theorem witness_NewConstructsTheInstance : State.reset.flight = none ∧ State.reset.regsLegal = true := by decide

theorem witness_NewRejectsOtherLengths :
    State.reset.flight = none ∧ State.reset.regsLegal = true ∧ ¬((31#32 : Word).toNat = 32 ∧ (8#32 : Word).toNat = 8) ∧
      ¬((32#32 : Word).toNat = 32 ∧ (9#32 : Word).toNat = 8) := by decide

theorem witness_InstanceCheckComesFirst :
    (State.reset.flight = none ∧ State.reset.regsLegal = true ∧ State.reset.st = .empty) ∧
      dead.flight = none ∧ dead.regsLegal = true ∧ dead.st = .dead := by
  refine ⟨?_, rfl, ?_, rfl⟩ <;> decide

theorem witness_UnequalLengthsChangeNothing :
    fresh.flight = none ∧ fresh.regsLegal = true ∧ fresh.st = .ready ∧ (5#32 : Word) ≠ 4#32 := by decide

theorem witness_ZeroLengthApplyChangesNothing :
    ∀ s ∈ [State.reset, fresh, last 64#7, dead], s.flight = none ∧ s.regsLegal = true := by
  intro s h
  fin_cases h <;> exact ⟨rfl, by decide⟩

/-- At length 0, at one byte into a second block, and at the last usable byte of the stream. -/
theorem witness_ApplyEndState :
    (fresh.flight = none ∧ fresh.regsLegal = true ∧ fresh.st = .ready ∧ fresh.cachedBlock Config.blockFn ∧
      fresh.pos + (0#32 : Word).toNat ≤ 64 * (2 ^ 64 - 1) ∧ fresh.pos + (65#32 : Word).toNat ≤ 64 * (2 ^ 64 - 1)) ∧
    ((last 60#7).flight = none ∧ (last 60#7).regsLegal = true ∧ (last 60#7).st = .ready ∧
      (last 60#7).cachedBlock Config.blockFn ∧ (last 60#7).pos + (4#32 : Word).toNat = 64 * (2 ^ 64 - 1)) :=
  ⟨⟨rfl, by decide, rfl, fresh_cached, by decide, by decide⟩, rfl, by decide, rfl, last_cached _, by decide⟩

/-- In place, with the destination right behind the source, and with it two bytes before the source. -/
theorem witness_ApplyXorsTheKeystream :
    fresh.flight = none ∧ fresh.regsLegal = true ∧ fresh.st = .ready ∧ fresh.cachedBlock Config.blockFn ∧
      fresh.pos + (4#32 : Word).toNat ≤ 64 * (2 ^ 64 - 1) ∧
      ((0x2000#32 - 0x2000#32 : Word).toNat = 0) ∧ ((4#32 : Word).toNat ≤ (0x2004#32 - 0x2000#32 : Word).toNat) ∧
      ((4#32 : Word).toNat ≤ (0x1FFE#32 - 0x2000#32 : Word).toNat) :=
  ⟨rfl, by decide, rfl, fresh_cached, by decide, by decide, by decide, by decide⟩

theorem witness_DisjointOrAliasedReadBeforeWritten :
    (0x2000#32 : Word) = 0x2000#32 ∧
      ∀ a, ¬(inBuffer 0x3000#32 4#32 a = true ∧ inBuffer 0x2000#32 4#32 a = true) := by
  refine ⟨rfl, fun a => ?_⟩
  simp only [inBuffer, decide_eq_true_eq]
  bv_omega

theorem witness_OverlapRunsTheSerialLoop :
    fresh.flight = none ∧ fresh.regsLegal = true ∧ fresh.st = .ready ∧ fresh.cachedBlock Config.blockFn ∧
      fresh.pos + (4#32 : Word).toNat ≤ 64 * (2 ^ 64 - 1) ∧ 0 < (0x2001#32 - 0x2000#32 : Word).toNat ∧
      (0x2003#32 - 0x2000#32 : Word).toNat < (4#32 : Word).toNat ∧
      (0x2001#32 - 0x2000#32 : Word).toNat < (4#32 : Word).toNat :=
  ⟨rfl, by decide, rfl, fresh_cached, by decide, by decide, by decide, by decide⟩

/-- V-ERR-10 and V-ERR-6: four bytes of five are left, and none of one; the five in place, behind the source, and with
the destination running two bytes ahead of it. -/
theorem witness_ApplyExhaustsTheCounter :
    ((last 60#7).flight = none ∧ (last 60#7).regsLegal = true ∧ (last 60#7).st = .ready ∧
      (last 60#7).cachedBlock Config.blockFn ∧ 64 * (2 ^ 64 - 1) < (last 60#7).pos + (5#32 : Word).toNat) ∧
    ((last 64#7).flight = none ∧ (last 64#7).regsLegal = true ∧ (last 64#7).st = .ready ∧
      (last 64#7).cachedBlock Config.blockFn ∧ 64 * (2 ^ 64 - 1) < (last 64#7).pos + (1#32 : Word).toNat) ∧
    (0x2000#32 - 0x2000#32 : Word).toNat = 0 ∧ 4 < (0x1000#32 - 0x2000#32 : Word).toNat ∧
      (0x2002#32 - 0x2000#32 : Word).toNat = 2 :=
  ⟨⟨rfl, by decide, rfl, last_cached _, by decide⟩, ⟨rfl, by decide, rfl, last_cached _, by decide⟩, by decide⟩

theorem witness_ApplyFrame :
    fresh.flight = none ∧ fresh.regsLegal = true ∧ inBuffer 0x3000#32 4#32 0x3004#32 = false ∧
      inBuffer 0x3000#32 4#32 0x2FFF#32 = false ∧ ¬(State.reset.st = .ready ∧ (4#32 : Word) = 4#32) ∧
      ¬(fresh.st = .ready ∧ (5#32 : Word) = 4#32) := by decide

theorem witness_ApplyAccessOrder :
    fresh.flight = none ∧ fresh.regsLegal = true ∧ fresh.st = .ready ∧ fresh.cachedBlock Config.blockFn ∧
      fresh.pos + (0xFFFFFFFF#32 : Word).toNat ≤ 64 * (2 ^ 64 - 1) :=
  ⟨rfl, by decide, rfl, fresh_cached, by decide⟩

/-- With a block needed, and with none needed. -/
theorem witness_ApplyBlockRequests :
    (fresh.flight = none ∧ fresh.regsLegal = true ∧ fresh.st = .ready ∧ fresh.cachedBlock Config.blockFn ∧
      fresh.pos + (65#32 : Word).toNat ≤ 64 * (2 ^ 64 - 1) ∧ 1 ≤ (65#32 : Word).toNat) ∧
    ((last 60#7).flight = none ∧ (last 60#7).regsLegal = true ∧ (last 60#7).st = .ready ∧
      (last 60#7).cachedBlock Config.blockFn ∧ (last 60#7).pos + (4#32 : Word).toNat ≤ 64 * (2 ^ 64 - 1) ∧
      1 ≤ (4#32 : Word).toNat) :=
  ⟨⟨rfl, by decide, rfl, fresh_cached, by decide, by decide⟩, rfl, by decide, rfl, last_cached _, by decide, by decide⟩

/-- The first byte of the block is consumed and replaced. -/
theorem witness_ConsumedKeystreamIsNeverUsed :
    let s := { fresh with counter := 1#64, offset := 1#7 }
    let old : Bytes 64 := (Bytes.zero 64).set 0 0xFF#8
    s.flight = none ∧ s.regsLegal = true ∧ old ≠ s.ksblock ∧
      ∀ j : Fin 64, s.offset.toNat ≤ j.val → old[j] = s.ksblock[j] := by decide

/-! A successful APPLY over the open block function, for the two statements about several commands. -/

theorem runs {s : State} (d r l : Word) (hf : s.flight = none) (hr : s.regsLegal = true) (hst : s.st = .ready)
    (hok : (applyBytes Config.blockFn l.toNat d r (s.accept (some (.apply d l r l)))).2 = true) :
    runOk [.apply d l r l] s = some ((finish (applyBytes Config.blockFn l.toNat d r
      (s.accept (some (.apply d l r l))))).takeResponse Result.ok.word) := by
  have ans := finish_answered (applyBytes_frame Config.blockFn l.toNat d r (s.accept (some (.apply d l r l)))).2.2.2.1
  rw [hok, if_pos rfl] at ans
  simp only [runOk, exec_apply_bytes d r l hf hr hst]
  exact if_pos ans

/-- Two chunks of one byte, and one of two: both succeed on the same input, read at 0x2000. -/
theorem witness_StreamingEquivalence :
    ∃ input out1 out2 u1 u2,
      fresh.regsLegal = true ∧ fresh.st = .ready ∧ fresh.cachedBlock Config.blockFn ∧
      (∀ c ∈ [Chunk.mk 0x3000#32 0x2000#32 1#32, Chunk.mk 0x3001#32 0x2001#32 1#32],
        readsBeforeWrites c.dst c.src c.len = true) ∧
      (∀ c ∈ [Chunk.mk 0x2000#32 0x2000#32 2#32], readsBeforeWrites c.dst c.src c.len = true) ∧
      streamChunks [Chunk.mk 0x3000#32 0x2000#32 1#32, Chunk.mk 0x3001#32 0x2001#32 1#32] fresh =
        some (input, out1, u1) ∧
      streamChunks [Chunk.mk 0x2000#32 0x2000#32 2#32] fresh = some (input, out2, u2) := by
  have h1 := runs 0x3000#32 0x2000#32 1#32 (s := fresh) rfl (by decide) rfl rfl
  have hb : ((finish (applyBytes Config.blockFn (1#32 : Word).toNat 0x3000#32 0x2000#32
      (fresh.accept (some (.apply 0x3000#32 1#32 0x2000#32 1#32))))).takeResponse Result.ok.word).byteAt 0x2001#32 =
      0x00#8 :=
    State.byteAt_xorByte_other (s := _) (dst := 0x3000#32) 0x2000#32 (a := 0x2001#32) (by decide)
  have h2 := runs 0x3001#32 0x2001#32 1#32 (s := (finish (applyBytes Config.blockFn (1#32 : Word).toNat 0x3000#32
    0x2000#32 (fresh.accept (some (.apply 0x3000#32 1#32 0x2000#32 1#32))))).takeResponse Result.ok.word)
    rfl (by decide) rfl rfl
  have h3 := runs 0x2000#32 0x2000#32 2#32 (s := fresh) rfl (by decide) rfl rfl
  have e1 : (streamChunks [Chunk.mk 0x3000#32 0x2000#32 1#32, Chunk.mk 0x3001#32 0x2001#32 1#32] fresh).map (·.1) =
      some [0x00#8, 0x00#8] := by
    simp only [streamChunks, Chunk.cmd, h1, h2]
    exact congrArg (fun b => some [0x00#8, b]) hb
  have e2 : (streamChunks [Chunk.mk 0x2000#32 0x2000#32 2#32] fresh).map (·.1) = some [0x00#8, 0x00#8] := by
    simp only [streamChunks, Chunk.cmd, h3]
    rfl
  obtain ⟨⟨i1, o1, u1⟩, c1, rfl⟩ := Option.map_eq_some_iff.1 e1
  obtain ⟨⟨i2, o2, u2⟩, c2, d2⟩ := Option.map_eq_some_iff.1 e2
  cases d2
  exact ⟨_, _, _, _, _, by decide, rfl, fresh_cached, by decide, by decide, c1, c2⟩

/-- The same chunks, the second source byte written by another agent after the first chunk; and both bytes there before
the one chunk of two. -/
theorem witness_StreamingEquivalenceAcrossWrites :
    ∃ m input out1 out2 u1 u2,
      fresh.regsLegal = true ∧ fresh.st = .ready ∧ fresh.cachedBlock Config.blockFn ∧
      (∀ c ∈ [(([] : Memory), Chunk.mk 0x3000#32 0x2000#32 1#32), (m, Chunk.mk 0x3001#32 0x2001#32 1#32)],
        readsBeforeWrites c.2.dst c.2.src c.2.len = true) ∧
      (∀ c ∈ [(m, Chunk.mk 0x2000#32 0x2000#32 2#32)], readsBeforeWrites c.2.dst c.2.src c.2.len = true) ∧
      streamAcross [([], Chunk.mk 0x3000#32 0x2000#32 1#32), (m, Chunk.mk 0x3001#32 0x2001#32 1#32)] fresh =
        some (input, out1, u1) ∧
      streamAcross [(m, Chunk.mk 0x2000#32 0x2000#32 2#32)] fresh = some (input, out2, u2) := by
  let m : Memory := [(0x2001, 0x55#8)]
  have h1 := runs 0x3000#32 0x2000#32 1#32 (s := fresh) rfl (by decide) rfl rfl
  have h2 := runs 0x3001#32 0x2001#32 1#32 (s := { (finish (applyBytes Config.blockFn (1#32 : Word).toNat 0x3000#32
    0x2000#32 (fresh.accept (some (.apply 0x3000#32 1#32 0x2000#32 1#32))))).takeResponse Result.ok.word with mem := m })
    rfl (by decide) rfl rfl
  have h3 := runs 0x2000#32 0x2000#32 2#32 (s := { fresh with mem := m }) rfl (by decide) rfl rfl
  have e1 : (streamAcross [([], Chunk.mk 0x3000#32 0x2000#32 1#32), (m, Chunk.mk 0x3001#32 0x2001#32 1#32)] fresh).map
      (·.1) = some [0x00#8, 0x55#8] := by
    simp only [streamAcross, Chunk.cmd, show { fresh with mem := [] } = fresh from rfl, h1, h2]
    rfl
  have e2 : (streamAcross [(m, Chunk.mk 0x2000#32 0x2000#32 2#32)] fresh).map (·.1) = some [0x00#8, 0x55#8] := by
    simp only [streamAcross, Chunk.cmd, h3]
    rfl
  obtain ⟨⟨i1, o1, u1⟩, c1, rfl⟩ := Option.map_eq_some_iff.1 e1
  obtain ⟨⟨i2, o2, u2⟩, c2, d2⟩ := Option.map_eq_some_iff.1 e2
  cases d2
  exact ⟨m, _, _, _, _, _, by decide, rfl, fresh_cached, by decide, by decide, c1, c2⟩

theorem runs_new {s : State} (ka na : Word) (hf : s.flight = none) (hr : s.regsLegal = true) :
    runOk [.new ka 32#32 na 8#32] s = some ((((s.accept (some (.new ka 32#32 na 8#32))).construct ka na).respond
      .ok).takeResponse Result.ok.word) := by
  obtain ⟨k, n, e, -⟩ := construct_eq (s.accept (some (.new ka 32#32 na 8#32))) ka na
  simp only [runOk, exec_new_valid hf hr]
  exact if_pos (by rw [e]; rfl)

theorem runOk_first {i : Instr} {is : List Instr} {s u : State} (h : runOk [i] s = some u) :
    runOk (i :: is) s = runOk is u := by
  simp only [runOk] at h ⊢
  split at h
  · split at h
    · rename_i c
      rw [if_pos c]; cases h; rfl
    · cases h
  · cases h

/-- Encryption of two bytes to another buffer, and decryption in place. -/
theorem witness_ApplyTwiceGivesBackTheSource :
    readsBeforeWrites 0x3000#32 0x2000#32 2#32 = true ∧ readsBeforeWrites 0x3000#32 0x3000#32 2#32 = true ∧
      (∀ a, inBuffer 0x3000#32 2#32 a = true → inBuffer 0x1000#32 32#32 a = false ∧ inBuffer 0x1020#32 8#32 a = false) ∧
      ∃ t, runOk [.new 0x1000#32 32#32 0x1020#32 8#32, .apply 0x3000#32 2#32 0x2000#32 2#32,
        .new 0x1000#32 32#32 0x1020#32 8#32, .apply 0x3000#32 2#32 0x3000#32 2#32] State.reset = some t := by
  refine ⟨by decide, by decide, fun a h => ?_, ?_⟩
  · simp only [inBuffer, decide_eq_true_eq, decide_eq_false_iff_not] at *
    constructor <;> bv_omega
  · rw [runOk_first (runs_new _ _ rfl (by decide)), runOk_first (runs _ _ _ rfl (by rfl) rfl rfl),
      runOk_first (runs_new _ _ rfl (by rfl)), runs _ _ _ rfl (by rfl) rfl rfl]
    exact ⟨_, rfl⟩

theorem witness_CommandsDependOnlyOnWhatTheyRead :
    let s1 := fresh
    let s2 := { fresh with mem := [(0x2004, 0x55#8)], host := [.tick] }
    s1.flight = none ∧ s2.flight = none ∧ s1.regsLegal = true ∧ s2.key = s1.key ∧ s2.nonce = s1.nonce ∧
      s2.counter = s1.counter ∧ s2.ksblock = s1.ksblock ∧ s2.offset = s1.offset ∧ s2.st = s1.st ∧ s2.mem ≠ s1.mem ∧
      ∀ a, cmdReads (.apply 0x3000#32 4#32 0x2000#32 4#32) a = true → s2.byteAt a = s1.byteAt a := by
  refine ⟨rfl, rfl, by decide, rfl, rfl, rfl, rfl, rfl, rfl, by decide, fun a h => ?_⟩
  have h' : (a - 0x2000#32).toNat < 4 := by simpa [cmdReads, inBuffer] using h
  have : a.toNat ≠ 0x2004 := by bv_omega
  simp [State.byteAt, Memory.read, this, fresh, State.reset]

/-- Every way it can end: with no instance, on a READY one with the stream at its end, and on one with unequal lengths. -/
theorem witness_FailedCommandsChangeNothing :
    ∀ s ∈ [State.reset, last 64#7, fresh], s.flight = none ∧ s.regsLegal = true := by
  intro s h
  fin_cases h <;> exact ⟨rfl, by decide⟩

theorem witness_EveryCommandIsAnswered : dead.flight = none ∧ dead.regsLegal = true := ⟨rfl, by decide⟩

theorem midApply_inv : midApply.inv := by
  refine ⟨by decide, by decide, last_cached _, fun h => absurd h (by decide), fun h => absurd h (by decide), ?_⟩
  exact ⟨by decide, 0x3000#32, 0x2000#32, 5#32, rfl, rfl, by decide, by decide, fun _ => by decide⟩

/-- A command in the middle of a run, and its next micro-operation. -/
theorem witness_StepKeepsTheInvariants : midApply.inv ∧ ∃ t, step midApply = .next t := ⟨midApply_inv, _, rfl⟩

theorem witness_StepKeepsPortsAlternating :
    let s := { State.reset with host := [.offer newPacket] }
    portsInFlight s.trace = some s.flight.isSome ∧ (match step s with | .next _ => true | _ => false) = true := by
  decide

theorem witness_StatusChangesOnlyByItsEvents_reset :
    ∃ t, step { fresh with host := [.reset] } = .next t ∧ t.st ≠ { fresh with host := [.reset] }.st :=
  ⟨_, rfl, by decide⟩

theorem witness_StatusChangesOnlyByItsEvents_new :
    let s := { State.reset with host := [.send newPacket] }
    (match step s with | .next t => decide (t.st ≠ s.st) | _ => false) = true := by decide

theorem witness_StatusChangesOnlyByItsEvents_dead :
    ∃ t, step { last 64#7 with host := [.send applyPacket] } = .next t ∧
      t.st ≠ { last 64#7 with host := [.send applyPacket] }.st :=
  ⟨_, rfl, by decide⟩

/-- A command in the middle of a run; and another agent's write while a NEW stands at its construction. -/
theorem witness_KeyIsImmutableAndCounterMonotonic :
    ((∃ t, step midApply = .next t) ∧ ¬midApply.resets ∧ ¬midApply.constructs) ∧
    let s := { midNew with host := [.write 0x1000#32 1#8] }
    (∃ t, step s = .next t) ∧ ¬s.resets ∧ ¬s.constructs := by
  refine ⟨⟨⟨_, rfl⟩, ?_, ?_⟩, ⟨_, rfl⟩, ?_, ?_⟩
  · rintro ⟨rest, h⟩; cases h
  · rintro (⟨p, rest, ka, na, h, -⟩ | ⟨-, f, h, hp⟩)
    · cases h
    · cases h; cases hp
  · rintro ⟨rest, h⟩; cases h
  · rintro (⟨p, rest, ka, na, h, -⟩ | ⟨h, -⟩)
    · cases h
    · cases h

theorem witness_MicroOperationsMakeTheWholeCommand :
    (fresh.flight = none ∧ fresh.regsLegal = true) ∧ (last 60#7).flight = none ∧ (last 60#7).regsLegal = true :=
  ⟨⟨rfl, by decide⟩, rfl, by decide⟩

end Sys2Proof.Tests
end

/-! A command run one micro-operation at a time ends in the state of the whole command (00_scope.md R10,
70_reset_and_hazards.md R186, R193). -/

namespace Sys2Proof.Machine

/-! ## The response keeps nothing of the flight but its command -/

/-- The response forgets where in the command it was given (10_state.md R27). -/
theorem respond_flying_congr (s : State) {f g : Flight} (h : f.cmd = g.cmd) (r : Result) :
    (s.flying f).respond r = (s.flying g).respond r := by
  simp [State.respond, State.flying, h]

theorem raise_exhausted_flying_congr (s : State) {f g : Flight} (h : f.cmd = g.cmd) :
    (s.flying f).raise .counterExhausted = (s.flying g).raise .counterExhausted :=
  respond_flying_congr { s with st := .dead } h _

/-! ## The operations of a command do not look at the flight -/

theorem gen_flying (B : Config.BlockFn) (s : State) (f : Flight) :
    (s.flying f).gen B = (s.gen B).map fun t => t.flying f := by
  by_cases hc : s.counter = Config.counterMax
  · rw [gen_exhausted B s hc, gen_exhausted B (s.flying f) hc]; rfl
  · rw [gen_eq B s hc, gen_eq B (s.flying f) hc]; rfl

theorem refill_flying (B : Config.BlockFn) (s : State) (f : Flight) :
    (s.flying f).refill B = (s.refill B).map fun t => t.flying f := by
  simp only [State.refill, show (s.flying f).pbbExhausted = s.pbbExhausted from rfl, gen_flying]
  split <;> rfl

theorem xorRun_flying (s : State) (f : Flight) (dst src cur : Word) (n : Nat) :
    (s.flying f).xorRun dst src cur n = (s.xorRun dst src cur n).flying f :=
  xorBytes_flying f _ _ _ s

theorem constructFrom_flying (s : State) (f : Flight) (get : Nat → Word → Byte) (kaddr naddr : Word) :
    (s.flying f).constructFrom get kaddr naddr = (s.constructFrom get kaddr naddr).flying f := by
  simp only [State.constructFrom, loadKey_fold, loadNonce_fold]
  rfl

theorem refill_st {B : Config.BlockFn} {s s1 : State} (h : s.refill B = some s1) : s1.st = s.st := by
  rcases refill_cases B s with ⟨-, e⟩ | ⟨-, -, e⟩ | ⟨-, -, e⟩ <;> rw [h] at e <;> cases e <;> rfl

/-! ## The head of the loop, by what the refill does (42_apply.md R123) -/

section Head
variable {B : Config.BlockFn} {f : Flight} {len : Word} {s s1 : State}

theorem microLoop_done (hc : ¬f.cur < len) : microLoop B f len s = s.respond .ok := if_neg hc

theorem microLoop_exhausted (hc : f.cur < len) (h : s.refill B = none) :
    microLoop B f len s = s.raise .counterExhausted := by
  have hp : s.pbbExhausted = true := by by_contra hp; simp [State.refill, hp] at h
  rw [State.refill, if_pos hp] at h
  rw [microLoop, if_pos hc, if_pos hp, h]

theorem microLoop_gen (hc : f.cur < len) (hp : s.pbbExhausted = true) (h : s.refill B = some s1) :
    microLoop B f len s = s1 := by
  rw [State.refill, if_pos hp] at h
  rw [microLoop, if_pos hc, if_pos hp, h]

theorem microLoop_start (hc : f.cur < len) (ho : s.offset.toNat < 64) :
    microLoop B f len s = s.goto { f with n := s.runLen (len - f.cur) } (.read 0) := by
  have hp : ¬s.pbbExhausted = true := fun e => ho.ne (offset_eq_64_iff.1 (of_decide_eq_true e))
  rw [microLoop, if_pos hc, if_neg hp]

end Head

/-! ## One pass of the loop, with no race -/

section Pass
variable {B : Config.BlockFn} {d l sr cur : Word} {n : Nat} {data : Byte} {held : List Host.Cell} {s s1 : State}

theorem advance_loop (hst : s.st = .ready) (ho : s.offset.toNat ≤ 64) :
    advance B (s.flying (applyFlight d l sr cur n data held .loop)) =
      .next (microLoop B (applyFlight d l sr cur n data held .loop) l
        (s.flying (applyFlight d l sr cur n data held .loop))) :=
  advance_flying _ (legal_of ho (by simp [hst]))

theorem advance_take (hst : s.st = .ready) (ho : s.offset.toNat ≤ 64) :
    advance B (s.flying (applyFlight d l sr cur n data held .take)) =
      .next ((s.takeOffset n).flying (applyFlight d l sr (takeCursor cur n) n data held .loop)) :=
  advance_flying _ (legal_of ho (by simp [hst]))

/-- With no bytes remaining the head of the loop answers OK, whatever flight of the command `g` is. -/
theorem advance_loop_done {g : Flight} (hg : g.cmd = some (.apply d l sr l)) (hst : s.st = .ready)
    (ho : s.offset.toNat ≤ 64) (hc : ¬cur < l) :
    advance B (s.flying (applyFlight d l sr cur n data held .loop)) = .next ((s.flying g).respond .ok) := by
  rw [advance_loop hst ho, microLoop_done hc, respond_flying_congr s hg.symm]

/-- With bytes remaining and no block to be had it raises `CounterExhausted`. -/
theorem advance_loop_exhausted {g : Flight} (hg : g.cmd = some (.apply d l sr l)) (hst : s.st = .ready)
    (ho : s.offset.toNat ≤ 64) (hc : cur < l) (h : s.refill B = none) :
    advance B (s.flying (applyFlight d l sr cur n data held .loop)) =
      .next ((s.flying g).raise .counterExhausted) := by
  rw [advance_loop hst ho, microLoop_exhausted hc (by rw [refill_flying, h]; rfl),
    raise_exhausted_flying_congr s hg.symm]

/-- With a fresh block one micro-operation takes the run length. -/
theorem advance_loop_start (hst : s.st = .ready) (ho : s.offset.toNat < 64) (hc : cur < l) :
    advance B (s.flying (applyFlight d l sr cur n data held .loop)) =
      .next (s.flying (applyFlight d l sr cur (s.runLen (l - cur)) data held (.read 0))) :=
  (advance_loop hst ho.le).trans (congrArg _ (microLoop_start hc ho))

/-- With the block used up, one micro-operation makes the refill. -/
theorem advance_loop_gen (hst : s.st = .ready) (hp : s.pbbExhausted = true) (hc : cur < l)
    (h : s.refill B = some s1) :
    advance B (s.flying (applyFlight d l sr cur n data held .loop)) =
      .next (s1.flying (applyFlight d l sr cur n data held .loop)) :=
  (advance_loop hst (offset_eq_64_iff.1 (of_decide_eq_true hp)).le).trans
    (congrArg _ (microLoop_gen hc hp (by rw [refill_flying, h]; rfl)))

/-- The refill and the run length are one micro-operation, or two where the refill is GEN. -/
theorem advanceMany_refill (hst : s.st = .ready) (ho : s.offset.toNat ≤ 64) (hc : cur < l)
    (h : s.refill B = some s1) :
    ∃ k ≤ 2, advanceMany B k (s.flying (applyFlight d l sr cur n data held .loop)) =
      .next (s1.flying (applyFlight d l sr cur (s1.runLen (l - cur)) data held (.read 0))) := by
  have start := advance_loop_start (B := B) (d := d) (sr := sr) (n := n) (data := data)
    (held := held) ((refill_st h).trans hst) (refill_offset h ho) hc
  by_cases hp : s.pbbExhausted = true
  · exact ⟨2, le_rfl, by rw [advanceMany_succ (advance_loop_gen hst hp hc h), advanceMany_succ start]; rfl⟩
  · obtain rfl : s = s1 := by simpa [State.refill, hp] using h
    exact ⟨1, by omega, by rw [advanceMany_succ start]; rfl⟩

/-- A whole run, from its first read to its last write, is `KXE.XORRUN` (40_units_microops.md R97). -/
theorem advanceMany_run (hst : s.st = .ready) (hn : s.offset.toNat + n ≤ 64) (hpos : 0 < n) :
    ∃ data' held', advanceMany B (2 * n) (s.flying (applyFlight d l sr cur n data held (.read 0))) =
      .next ((s.xorRun d sr cur n).flying (applyFlight d l sr cur n data' held' .take)) := by
  obtain ⟨m, rfl⟩ : ∃ m, n = m + 1 := ⟨n - 1, by omega⟩
  simpa [State.xorRun] using
    run_bytes (B := B) (d := d) (l := l) (sr := sr) m 0 s cur (m + 1) data held hst (by omega) hn (by omega)

/-- A run and its TAKE keep `ST`, and leave `OFFSET` in range. -/
theorem takeOffset_xorRun_regs (dst src cur : Word) (hn : s.offset.toNat + n ≤ 64) :
    (s.xorRun dst src cur n).st = s.st ∧ (s.xorRun dst src cur n).offset.toNat ≤ 64 ∧
      ((s.xorRun dst src cur n).takeOffset n).offset.toNat ≤ 64 := by
  obtain ⟨hst, hoff⟩ : (s.xorRun dst src cur n).st = s.st ∧ (s.xorRun dst src cur n).offset = s.offset :=
    xorBytes_regs _ _ _ s
  rw [← hoff] at hn
  exact ⟨hst, by omega, by rw [takeOffset_toNat hn]; exact hn⟩

/-- The run length while bytes remain is not zero, and no more than the cached block has left or the command asks for
(40_units_microops.md R96); so the cursor after it does not wrap. -/
theorem runLen_bounds (ho : s.offset.toNat < 64) (hc : cur < l) :
    0 < s.runLen (l - cur) ∧ s.offset.toNat + s.runLen (l - cur) ≤ 64 ∧
      cur.toNat + s.runLen (l - cur) ≤ l.toNat ∧
      (takeCursor cur (s.runLen (l - cur))).toNat = cur.toNat + s.runLen (l - cur) := by
  rw [BitVec.lt_def] at hc
  have := l.isLt
  simp only [State.runLen, takeCursor, BitVec.toNat_sub, BitVec.toNat_add, BitVec.toNat_ofNat]
  omega

/-- A pass of `n` bytes is at most `2 * n + 3` micro-operations: GEN, the run length, a read and a write for each
byte, TAKE. -/
theorem advanceMany_pass {m : Nat} (hst : s.st = .ready) (ho : s.offset.toNat ≤ 64) (hc : cur < l)
    (h : s.refill B = some s1) (hn : s1.runLen (l - cur) = n) (hpos : 0 < n) (hfit : s1.offset.toNat + n ≤ 64) :
    ∃ k ≤ 2 * n + 3, ∃ data' held',
      advanceMany B k (s.flying (applyFlight d l sr cur m data held .loop)) =
        .next (((s1.xorRun d sr cur n).takeOffset n).flying
          (applyFlight d l sr (takeCursor cur n) n data' held' .loop)) := by
  subst hn
  have hst1 := (refill_st h).trans hst
  obtain ⟨k, hk, refill⟩ := advanceMany_refill (d := d) (sr := sr) (n := m) (data := data) (held := held) hst ho hc h
  obtain ⟨data', held', run⟩ := advanceMany_run (B := B) (d := d) (l := l) (sr := sr) (cur := cur) (data := data)
    (held := held) hst1 hfit hpos
  obtain ⟨xst, xoff, -⟩ := takeOffset_xorRun_regs d sr cur hfit
  refine ⟨k + (2 * s1.runLen (l - cur) + 1), by omega, data', held', ?_⟩
  rw [advanceMany_add refill, advanceMany_add run, advanceMany_succ (advance_take (xst.trans hst1) xoff)]
  rfl

end Pass

/-! ## Whole commands -/

/-- The loop of APPLY from cursor `cur` on, one micro-operation at a time, ends in the state of `applyLoop`, after at
most five micro-operations for each byte that remains and one for the end. -/
theorem advanceMany_loop {B : Config.BlockFn} {d l sr : Word} {g : Flight} (hg : g.cmd = some (.apply d l sr l))
    (passes : Nat) (cur : Word) (n : Nat) (data : Byte) (held : List Host.Cell) (s : State)
    (hst : s.st = .ready) (ho : s.offset.toNat ≤ 64) (hp : l.toNat - cur.toNat ≤ passes) :
    ∃ k ≤ 5 * (l.toNat - cur.toNat) + 1,
      advanceMany B k (s.flying (applyFlight d l sr cur n data held .loop)) =
        .next (applyLoop B d sr l passes cur (s.flying g)) := by
  induction passes generalizing cur n data held s with
  | zero =>
    have hc : ¬cur < l := by rw [BitVec.lt_def]; omega
    exact ⟨1, by omega, advanceMany_succ (advance_loop_done hg hst ho hc)⟩
  | succ passes ih =>
    rw [applyLoop]
    by_cases hc : cur < l
    case neg =>
      rw [if_neg hc]
      exact ⟨1, by omega, advanceMany_succ (advance_loop_done hg hst ho hc)⟩
    case pos =>
      rw [if_pos hc, refill_flying]
      cases h : s.refill B with
      | none => exact ⟨1, by omega, advanceMany_succ (advance_loop_exhausted hg hst ho hc h)⟩
      | some s1 =>
        obtain ⟨hpos, hfit, hle, hcur⟩ := runLen_bounds (refill_offset h ho) hc
        generalize hn : s1.runLen (l - cur) = m at hpos hfit hle hcur
        obtain ⟨k, hk, data', held', pass⟩ :=
          advanceMany_pass (d := d) (sr := sr) (data := data) (held := held) (m := n) hst ho hc h hn hpos hfit
        obtain ⟨xst, -, xoff⟩ := takeOffset_xorRun_regs d sr cur hfit
        obtain ⟨k', hk', rest⟩ := ih (takeCursor cur m) m data' held' ((s1.xorRun d sr cur m).takeOffset m)
          (xst.trans ((refill_st h).trans hst)) xoff (by omega)
        refine ⟨k + k', by omega, (advanceMany_add pass).trans (rest.trans ?_)⟩
        simp only [Option.map_some, xorRun_flying, show (s1.flying g).runLen (l - cur) = m from hn]
        rfl

/-- The flight of a command before its first byte: as accepted, but for its phase (10_state.md R27). -/
def acceptedFlight (i : Instr) (p : Phase) : Flight :=
  { cmd := some i, cur := 0#32, n := 0, data := 0#8, phase := p }

theorem accept_eq_flying (s : State) (i : Instr) : s.accept (some i) = s.flying (acceptedFlight i .check) := rfl

theorem microCheck_apply_ready {f : Flight} {s : State} {dst src len : Word}
    (hc : f.cmd = some (.apply dst len src len)) (hst : s.st = .ready) : microCheck f s = s.goto f .loop := by
  simp [microCheck, hc, hst]

section Command
variable {B : Config.BlockFn} {s : State} (hr : s.regsLegal = true)
include hr

/-- The first micro-operation of an accepted command makes its checks. -/
theorem advance_accept (i : Instr) :
    advance B (s.accept (some i)) = .next (microCheck (acceptedFlight i .check) (s.accept (some i))) :=
  advance_flying (acceptedFlight i .check) hr

/-- A command whose checks raise an error ends in one micro-operation. -/
theorem advanceMany_checks_raise {i : Instr} {r : Result}
    (hc : microCheck (acceptedFlight i .check) (s.accept (some i)) = (s.accept (some i)).raise r)
    (hd : r = .counterExhausted → s.st = .dead) :
    advanceMany B 1 (s.accept (some i)) = .next (s.ended (some i) r) := by
  rw [advanceMany_succ (advance_accept hr i), hc, accept_raise s _ r hd]
  rfl

/-- With no race the construction in flight is that of the whole command (41_new.md R112 to R114). -/
theorem advance_construct (kaddr klen naddr nlen : Word) :
    advance B (s.flying (acceptedFlight (.new kaddr klen naddr nlen) .construct)) =
      .next (((s.accept (some (.new kaddr klen naddr nlen))).construct kaddr naddr).respond .ok) := by
  let f := acceptedFlight (.new kaddr klen naddr nlen) .construct
  have quiet : (s.flying f).raceByte f = fun _ a => s.byteAt a := by
    funext k a; exact raceByte_quiet rfl k a
  rw [advance_flying _ hr, accept_eq_flying, State.construct, constructFrom_flying]
  show Host.Outcome.next (microConstruct f kaddr naddr (s.flying f)) = _
  rw [microConstruct, quiet, draw_quiet rfl, constructFrom_flying]
  exact congrArg _ (respond_flying_congr _ rfl _)

variable (hf : s.flight = none)
include hf

/-- NEW is its checks and, with the right lengths, its construction. -/
theorem microOperations_new (kaddr klen naddr nlen : Word) :
    ∃ k ≤ 2, advanceMany Config.blockFn k (s.accept (some (.new kaddr klen naddr nlen))) =
      exec (.new kaddr klen naddr nlen) s := by
  cases hv : newLengthsValid klen nlen
  case false =>
    rw [exec_new_invalid hf hr hv]
    exact ⟨1, by omega, advanceMany_checks_raise hr (by simp [microCheck, acceptedFlight, hv]) (by simp)⟩
  case true =>
    obtain ⟨rfl, rfl⟩ := (newLengthsValid_iff ..).1 hv
    have check : advance Config.blockFn (s.accept (some (.new kaddr 32#32 naddr 8#32))) =
        .next (s.flying (acceptedFlight (.new kaddr 32#32 naddr 8#32) .construct)) := advance_accept hr _
    rw [exec_new_valid hf hr]
    exact ⟨2, le_rfl, (advanceMany_succ check).trans (advanceMany_succ (advance_construct hr ..))⟩

/-- APPLY is its checks and, with equal lengths on a READY instance, its loop. -/
theorem microOperations_apply (dst dlen src slen : Word) :
    ∃ k ≤ 5 * slen.toNat + 2, advanceMany Config.blockFn k (s.accept (some (.apply dst dlen src slen))) =
      exec (.apply dst dlen src slen) s := by
  obtain ⟨hempty, hdead, hmismatch⟩ := exec_apply_checks dst dlen src slen hf hr
  cases hst : s.st
  case empty =>
    rw [hempty hst]
    exact ⟨1, by omega, advanceMany_checks_raise hr (by simp [microCheck, acceptedFlight, hst]) (by simp)⟩
  case dead =>
    rw [hdead hst]
    exact ⟨1, by omega, advanceMany_checks_raise hr (by simp [microCheck, acceptedFlight, hst]) (fun _ => hst)⟩
  case ready =>
    by_cases hl : dlen = slen
    case neg =>
      rw [hmismatch hst hl]
      exact ⟨1, by omega, advanceMany_checks_raise hr (by simp [microCheck, acceptedFlight, hst, hl]) (by simp)⟩
    case pos =>
      subst hl
      have check : advance Config.blockFn (s.accept (some (.apply dst dlen src dlen))) =
          .next (s.flying (applyFlight dst dlen src 0#32 0 0#8 [] .loop)) :=
        (advance_accept hr _).trans (congrArg _ (microCheck_apply_ready rfl hst))
      obtain ⟨k, hk, loop⟩ := advanceMany_loop (B := Config.blockFn) (d := dst) (l := dlen) (sr := src)
        (g := acceptedFlight (.apply dst dlen src dlen) .check) rfl dlen.toNat 0#32 0 0#8 [] s hst
        (offset_le_of_regsLegal hr) (by simp)
      refine ⟨k + 1, by omega, ?_⟩
      rw [advanceMany_succ check, loop, exec_apply_ready dst dlen src dlen hf hr, accept_eq_flying]
      simp [applyBody, State.flying, hst]

end Command

/-- Settles O45: the checks, then the construction of NEW or the passes of APPLY, each pass of `n` bytes at most
`2 * n + 3` micro-operations. -/
theorem microOperationsMakeTheWholeCommand : Obligations.MicroOperationsMakeTheWholeCommand := by
  unfold Obligations.MicroOperationsMakeTheWholeCommand
  intro i s hf hr
  cases i with
  | new kaddr klen naddr nlen => exact microOperations_new hr hf kaddr klen naddr nlen
  | apply dst dlen src slen => exact microOperations_apply hr hf dst dlen src slen

end Sys2Proof.Machine

/-! Every step keeps the invariants (10_state.md R28, R30, R32, R36; 60_exceptions.md R153). -/

namespace Sys2Proof.Machine

/-! ## Fields after a construction -/

section ConstructFrom
variable (s : State) (get : Nat → Word → Byte) (kaddr naddr : Word)

@[simp] theorem constructFrom_counter : (s.constructFrom get kaddr naddr).counter = 0#64 := by
  obtain ⟨_, _, e, -⟩ := constructFrom_eq s get kaddr naddr; rw [e]
@[simp] theorem constructFrom_ksblock : (s.constructFrom get kaddr naddr).ksblock = Bytes.zero 64 := by
  obtain ⟨_, _, e, -⟩ := constructFrom_eq s get kaddr naddr; rw [e]
@[simp] theorem constructFrom_offset : (s.constructFrom get kaddr naddr).offset = 64#7 := by
  obtain ⟨_, _, e, -⟩ := constructFrom_eq s get kaddr naddr; rw [e]
@[simp] theorem constructFrom_st : (s.constructFrom get kaddr naddr).st = .ready := by
  obtain ⟨_, _, e, -⟩ := constructFrom_eq s get kaddr naddr; rw [e]
@[simp] theorem constructFrom_flight : (s.constructFrom get kaddr naddr).flight = s.flight := by
  obtain ⟨_, _, e, -⟩ := constructFrom_eq s get kaddr naddr; rw [e]
@[simp] theorem constructFrom_mem : (s.constructFrom get kaddr naddr).mem = s.mem := by
  obtain ⟨_, _, e, -⟩ := constructFrom_eq s get kaddr naddr; rw [e]

end ConstructFrom

/-- A response is presented where the command in flight has ended (10_state.md R42). -/
theorem rspData_eq_some {s : State} {w : Word} (h : s.rspData = some w) :
    ∃ f, s.flight = some f ∧ f.phase = .respond w := by
  unfold State.rspData at h
  split at h
  · split at h
    · cases h; exact ⟨_, by assumption, by assumption⟩
    · cases h
  · cases h

/-! ## The invariants, with and without the command in flight -/

/-- The part of `State.inv` that does not look at the command in flight: memory and the registers. -/
def State.regsInv (s : State) : Prop :=
  s.mem.wf ∧ s.regsLegal = true ∧ s.cachedBlock Config.blockFn ∧ s.emptyIsReset ∧ s.deadIsExhausted

theorem inv_iff (s : State) : s.inv ↔ s.regsInv ∧ s.flightLegal := by
  simp only [State.inv, State.regsInv, and_assoc]

theorem regsInv_of_ready {s : State} (hm : s.mem.wf) (hst : s.st = .ready) (ho : s.offset.toNat ≤ 64)
    (hc : s.cachedBlock Config.blockFn) : s.regsInv := by
  refine ⟨hm, legal_of ho (by simp [hst]), hc, fun h => ?_, fun h => ?_⟩ <;> simp [hst] at h

theorem regsInv_of_dead {s : State} (hm : s.mem.wf) (hst : s.st = .dead) (hmax : s.counter = Config.counterMax)
    (ho : s.offset = 64#7) (hc : s.cachedBlock Config.blockFn) : s.regsInv := by
  refine ⟨hm, legal_of (by simp [ho]) (by simp [hst]), hc, fun h => ?_, fun _ => ⟨hmax, ho⟩⟩
  simp [hst] at h

theorem regsInv_of_reset {s : State} (hm : s.mem.wf) (hst : s.st = .empty) (hk : s.key = State.reset.key)
    (hn : s.nonce = State.reset.nonce) (hc : s.counter = 0#64) (hb : s.ksblock = State.reset.ksblock)
    (ho : s.offset = 64#7) : s.regsInv := by
  refine ⟨hm, by simp [State.regsLegal, hc, ho], ⟨fun _ => ⟨ho, hb⟩, fun h => absurd hc h⟩,
    fun _ => ⟨hk, hn, hc, hb, ho⟩, fun h => ?_⟩
  simp [hst] at h

/-- A command that has been answered, or none in flight, asks of the registers only that `OFFSET` is not 0. -/
theorem flightLegal_respond {s : State} {f : Flight} (hf : s.flight = some f) (r : Result) (ho : s.offset ≠ 0#7) :
    (s.respond r).flightLegal := by
  simp [State.flightLegal, hf, ho]

theorem respond_inv {s : State} {f : Flight} (hf : s.flight = some f) (r : Result) (ho : s.offset ≠ 0#7)
    (h : s.regsInv) : (s.respond r).inv :=
  (inv_iff _).2 ⟨h, flightLegal_respond hf r ho⟩

/-- Raising an error keeps the invariants: `CounterExhausted` is raised only where the counter and the block are used
up (60_exceptions.md R153). -/
theorem raise_inv {s : State} {f : Flight} (hf : s.flight = some f) (r : Result) (ho : s.offset ≠ 0#7)
    (h : s.regsInv) (hr : r = .counterExhausted → s.counter = Config.counterMax ∧ s.offset = 64#7) :
    (s.raise r).inv := by
  obtain ⟨hm, -, hc, -, -⟩ := id h
  cases r
  case counterExhausted =>
    obtain ⟨hmax, ho64⟩ := hr rfl
    exact respond_inv (s := { s with st := .dead }) hf _ ho (regsInv_of_dead hm rfl hmax ho64 hc)
  all_goals exact respond_inv hf _ ho h

/-- With the counter one on and the block of the number before it stored, as GEN leaves them, the cached-block
invariant holds (10_state.md R30, 40_units_microops.md R95). -/
theorem cachedBlock_of_next {B : Config.BlockFn} {s t : State} (hmax : s.counter ≠ Config.counterMax)
    (hc : t.counter = s.counter + 1#64) (hb : t.ksblock = B t.key t.nonce s.counter) : t.cachedBlock B := by
  have hpos : s.counter + 1#64 ≠ 0#64 := fun h => by
    have := counter_succ_toNat hmax
    simp [h] at this
  exact ⟨fun h => absurd (hc.symm.trans h) hpos, fun _ => by simp [hb, hc]⟩

/-! ## The micro-operations of APPLY and NEW -/

section Micro
variable {s : State} {f : Flight} (h : s.regsInv)
include h

theorem microCheck_inv (hf : s.flight = some f) (hcur : f.cur = 0#32) (ho : s.offset ≠ 0#7) :
    (microCheck f s).inv := by
  obtain ⟨-, hr, -, -, hdead⟩ := id h
  rcases microCheck_cases f s with ⟨r, -, hd, e⟩ | ⟨kaddr, naddr, hc, e⟩ | ⟨dst, src, len, hc, hst, e⟩ <;> rw [e]
  · exact raise_inv hf r ho h fun hx => hdead (hd hx)
  · exact (inv_iff _).2 ⟨h, ⟨kaddr, naddr, hc⟩, ho⟩
  · have hle : s.offset.toNat + 0 ≤ 64 := offset_le_of_regsLegal hr
    exact (inv_iff _).2 ⟨h, dst, src, len, hc, hst, hle, by simp [hcur], fun h0 => absurd h0 ho⟩

/-- A construction leaves a READY instance at the start of its stream, whatever its reads return. -/
theorem constructFrom_regsInv (get : Nat → Word → Byte) (kaddr naddr : Word) :
    (s.constructFrom get kaddr naddr).regsInv := by
  refine regsInv_of_ready ?_ (constructFrom_st ..) ?_
    ⟨fun _ => ⟨constructFrom_offset .., constructFrom_ksblock ..⟩, ?_⟩
  · rw [constructFrom_mem]; exact h.1
  · simp
  · simp

theorem constructFrom_respond_inv (hf : s.flight = some f) (get : Nat → Word → Byte) (kaddr naddr : Word)
    (r : Result) : ((s.constructFrom get kaddr naddr).respond r).inv :=
  respond_inv ((constructFrom_flight ..).trans hf) r (by simp) (constructFrom_regsInv h get kaddr naddr)

theorem microConstruct_inv (hf : s.flight = some f) (kaddr naddr : Word) : (microConstruct f kaddr naddr s).inv :=
  constructFrom_respond_inv h hf (s.raceByte f) kaddr naddr .ok

theorem microLoop_inv {dst dlen src slen : Word} (hf : s.flight = some f) (hp : f.phase = .loop)
    (hc : f.cmd = some (.apply dst dlen src slen)) (ha : s.applying f 0) :
    (microLoop Config.blockFn f slen s).inv := by
  have hm := h.1
  obtain ⟨d, sr, l, hc', hst, ho, hcur, hz⟩ := ha
  obtain ⟨rfl, rfl, rfl, rfl⟩ : dst = d ∧ dlen = l ∧ src = sr ∧ slen = l := by simpa [hc] using hc'
  rcases microLoop_cases Config.blockFn f slen s with
    ⟨hlt, e⟩ | ⟨hlt, ho64, hmax, e⟩ | ⟨hlt, ho64, hmax, e⟩ | ⟨hlt, ho64, e⟩ <;> rw [e]
  · exact respond_inv hf _ (fun h0 => hlt (hz h0)) h
  · exact raise_inv hf _ (by simp [ho64]) h fun _ => ⟨hmax, ho64⟩
  · refine (inv_iff _).2 ⟨regsInv_of_ready hm hst (by simp) (cachedBlock_of_next hmax rfl rfl), ?_⟩
    simp only [State.flightLegal, hf, hp]
    exact ⟨dst, src, slen, hc, hst, by simp, hcur, fun _ => hlt⟩
  · have ho' : s.offset.toNat < 64 := by have := mt offset_eq_64_iff.2 ho64; omega
    obtain ⟨hpos, hfit, hle, -⟩ := runLen_bounds ho' hlt
    refine (inv_iff _).2 ⟨h, hpos, dst, src, slen, hc, hst, hfit, hle, fun _ => hlt⟩

/-- Inside a run the memory port may be used, and nothing of the registers changes. -/
theorem microRead_inv {k : Nat} (src : Word) (hk : k < f.n) (ha : s.applying f f.n) : (microRead f src k s).inv :=
  (inv_iff _).2 ⟨h, hk, ha⟩

theorem microWrite_inv {k : Nat} {dst : Word} {t : State} (hk : k < f.n) (ha : s.applying f f.n)
    (hw : microWrite f dst k s = .next t) : t.inv := by
  obtain ⟨hm, hregs⟩ := id h
  obtain ⟨-, rfl⟩ := microWrite_cases hw
  refine (inv_iff _).2 ⟨⟨State.memWrite_wf _ _ hm, hregs⟩, ?_⟩
  split
  case isTrue hlt => exact ⟨hlt, ha⟩
  case isFalse => exact ⟨Nat.zero_lt_of_lt hk, ha⟩

/-- TAKE keeps the invariants: the run is within the cached block and within the command. -/
theorem microTake_inv (hpos : 0 < f.n) (ha : s.applying f f.n) : (microTake f s).inv := by
  obtain ⟨hm, -, ⟨hzero, hblock⟩, -, -⟩ := id h
  obtain ⟨dst, src, len, hc, hst, ho, hcur, -⟩ := ha
  have hoff := takeOffset_toNat ho
  have hcount : s.counter ≠ 0#64 := fun h0 => by have := offset_eq_64_iff.1 (hzero h0).1; omega
  have hcur' : (takeCursor f.cur f.n).toNat = f.cur.toNat + f.n := by
    have := len.isLt
    simp only [takeCursor, BitVec.toNat_add, BitVec.toNat_ofNat]; omega
  refine (inv_iff _).2 ⟨regsInv_of_ready hm hst (hoff.trans_le ho) ⟨fun h0 => absurd h0 hcount, hblock⟩,
    dst, src, len, hc, hst, hoff.trans_le ho, hcur'.trans_le hcur, fun h0 => ?_⟩
  have h0' : (s.takeOffset f.n).offset = 0#7 := h0
  rw [h0'] at hoff
  simp at hoff; omega

end Micro

theorem microStep_inv {s t : State} {f : Flight} (h : s.inv) (hf : s.flight = some f)
    (hstep : microStep Config.blockFn f s = .next t) : t.inv := by
  obtain ⟨hreg, hl⟩ := (inv_iff s).1 h
  obtain ⟨-, hcases⟩ := microStep_cases hstep
  rcases hcases with ⟨hp, rfl⟩ | ⟨kaddr, _, naddr, _, hp, hc, rfl⟩ | ⟨dst, dlen, src, slen, hp, hc, rfl⟩ |
    ⟨dst, dlen, src, slen, k, hp, hc, rfl⟩ | ⟨dst, dlen, src, slen, k, hp, hc, hw⟩ |
    ⟨dst, dlen, src, slen, hp, hc, rfl⟩ | ⟨w, hp, rfl⟩
  case inr.inr.inr.inr.inr.inr => exact h
  all_goals simp only [State.flightLegal, hf, hp] at hl
  · exact microCheck_inv hreg hf hl.1 hl.2
  · exact microConstruct_inv hreg hf kaddr naddr
  · exact microLoop_inv hreg hf hp hc hl
  · exact microRead_inv hreg src hl.1 hl.2
  · exact microWrite_inv hreg hl.1 hl.2 hw
  · exact microTake_inv hreg hl.1 hl.2

theorem advance_inv {s t : State} (h : s.inv) (hstep : advance Config.blockFn s = .next t) : t.inv := by
  rcases advance_cases hstep with ⟨-, rfl⟩ | ⟨f, hf, hmicro⟩
  · exact h
  · exact microStep_inv h hf hmicro

/-! ## Whole commands -/

/-- At the end of the usable stream the counter and the block are used up (42_apply.md R131). -/
theorem exhausted_of_pos {B : Config.BlockFn} {s : State} (ho : s.offset.toNat ≤ 64) (hc : s.cachedBlock B)
    (hp : s.pos = streamCapacity) : s.counter = Config.counterMax ∧ s.offset = 64#7 := by
  have h64 := pos_add_64 hc
  have := s.counter.isLt
  rw [counter_eq_max_iff, offset_eq_64_iff]
  simp only [hp, streamCapacity] at h64
  omega

/-- Processing the bytes of an APPLY and answering it keeps the invariants, whether or not the stream runs out. -/
theorem finish_applyBytes_inv {s : State} {f : Flight} (h : s.regsInv) (hf : s.flight = some f)
    (hst : s.st = .ready) (ho : s.offset ≠ 0#7) (n : Nat) (dst src : Word) :
    (finish (applyBytes Config.blockFn n dst src s)).inv := by
  obtain ⟨hm, hr, hc, -, -⟩ := h
  have hm' := applyBytes_wf Config.blockFn n dst src hm
  obtain ⟨-, -, hst', hf', -⟩ := applyBytes_frame Config.blockFn n dst src s
  obtain ⟨hok, hpos, hc', ho', hne, -⟩ := applyBytes_pos n dst src (offset_le_of_regsLegal hr) hc
  generalize applyBytes Config.blockFn n dst src s = r at *
  have hreg := regsInv_of_ready hm' (hst'.trans hst) ho' hc'
  unfold finish
  split
  case isTrue => exact respond_inv (hf'.trans hf) _ (hne ho) hreg
  case isFalse hend =>
    have hend' : ¬s.pos + n ≤ streamCapacity := fun hle => hend (hok.trans (decide_eq_true hle))
    exact raise_inv (hf'.trans hf) _ (hne ho) hreg fun _ => exhausted_of_pos ho' hc' (by omega)

theorem exec_inv {i : Instr} {s t : State} (h : s.regsInv) (ho : s.offset ≠ 0#7) (hexec : exec i s = .next t) :
    t.inv := by
  obtain ⟨-, -, hcases⟩ := exec_cases hexec
  rcases hcases with ⟨r, rfl, -, -⟩ | ⟨kaddr, naddr, -, rfl⟩ | ⟨dst, src, len, -, hst, rfl⟩
  · exact (inv_iff _).2 ⟨h, ⟨r, rfl⟩, ho⟩
  · exact constructFrom_respond_inv (s := s.accept (some i)) h rfl _ kaddr naddr .ok
  · exact finish_applyBytes_inv (s := s.accept (some i)) h rfl hst ho len.toNat dst src

/-! ## The step -/

/-- Noting a race leaves the command in flight at its place. -/
theorem noteRace_flightLegal (s : State) (a : Word) : (s.noteRace a).flightLegal ↔ s.flightLegal := by
  cases hf : s.flight <;> simp [State.flightLegal, State.noteRace, State.applying, hf]

theorem hostWrite_inv {s : State} (a : Word) (v : Byte) (h : s.inv) : (hostWrite a v s).inv := by
  obtain ⟨⟨hm, hregs⟩, hl⟩ := (inv_iff s).1 h
  have hm' : (s.mem.write a.toNat v).wf := Memory.write_wf v a.isLt hm
  unfold hostWrite
  split
  case isFalse => exact (inv_iff _).2 ⟨⟨hm', hregs⟩, hl⟩
  case isTrue => exact (inv_iff _).2 ⟨⟨hm', hregs⟩, (noteRace_flightLegal s a).2 hl⟩

theorem takeResponse_inv {s : State} {w : Word} (h : s.inv) (hrsp : s.rspData = some w) :
    (s.takeResponse w).inv := by
  obtain ⟨hreg, hl⟩ := (inv_iff s).1 h
  obtain ⟨f, hf, hp⟩ := rspData_eq_some hrsp
  simp only [State.flightLegal, hf, hp] at hl
  exact (inv_iff _).2 ⟨hreg, hl.2⟩

theorem hardReset_inv {s : State} (hm : s.mem.wf) : s.hardReset.inv :=
  (inv_iff _).2 ⟨regsInv_of_reset hm rfl rfl rfl rfl rfl rfl, show (64#7 : BitVec 7) ≠ 0#7 by decide⟩

/-- Settles O40, by what each kind of step does: SCKM's own micro-operation, a whole command, or an act of the host. -/
theorem stepKeepsTheInvariants : Obligations.StepKeepsTheInvariants := by
  unfold Obligations.StepKeepsTheInvariants
  intro s t h hstep
  obtain ⟨hreg, hl⟩ := (inv_iff s).1 h
  have hidle : s.flight = none → s.offset ≠ 0#7 := fun hf => by simpa only [State.flightLegal, hf] using hl
  rcases step_cases hstep with ⟨-, hadv⟩ | ⟨rest, -, hadv⟩ | ⟨p, rest, i, -, hf, -, hexec⟩ |
    ⟨p, rest, r, -, hf, -, -, rfl⟩ | ⟨p, rest, -, hf, rfl⟩ | ⟨w, rest, -, hrsp, rfl⟩ | ⟨rest, -, rfl⟩ |
    ⟨a, v, rest, -, rfl⟩ | ⟨a, rest, -, rfl⟩
  · exact advance_inv h hadv
  · exact advance_inv (s := s.withHost rest) h hadv
  · exact exec_inv (s := (s.withHost rest).log (.cmd p)) hreg (hidle hf) hexec
  · exact (inv_iff _).2 ⟨hreg, ⟨.illegalCommand, rfl⟩, hidle hf⟩
  · exact (inv_iff _).2 ⟨hreg, rfl, hidle hf⟩
  · exact takeResponse_inv (s := s.withHost rest) h hrsp
  · exact hardReset_inv (s := s.withHost rest) hreg.1
  · exact hostWrite_inv (s := s.withHost rest) a v h
  · exact h

/-- Settles O41: with memory empty, reset is what a RESET leaves. -/
theorem resetMeetsTheInvariants : Obligations.ResetMeetsTheInvariants := by
  unfold Obligations.ResetMeetsTheInvariants
  exact (inv_iff _).2 ⟨regsInv_of_reset (by decide) rfl rfl rfl rfl rfl rfl, show (64#7 : BitVec 7) ≠ 0#7 by decide⟩

end Sys2Proof.Machine

/-! What SCKM records while a command is in flight, and the strict alternation of commands and responses
(10_state.md R41, R42; 20_memory.md R61; 30_encoding.md R80; 70_reset_and_hazards.md R184). -/

namespace Sys2Proof.Machine

/-! ## Work on a command: memory and block transfers only -/

/-- The transfer is one on the memory or the block-function port, which a command makes while it is in flight. -/
def Transfer.inside : Transfer → Bool
  | .memRead _ _ => true
  | .memWrite _ _ => true
  | .blk _ _ _ _ => true
  | _ => false

/-- SCKM comes from `s` to `t` by work on a command: the host's list and whether a command is in flight are as before,
and every transfer recorded since is one on the memory or the block-function port. -/
structure State.worksTo (s t : State) : Prop where
  host : t.host = s.host
  flight : t.flight.isSome = s.flight.isSome
  trace : ∃ fresh, t.trace = fresh ++ s.trace ∧ ∀ x ∈ fresh, x.inside = true

namespace State.worksTo

/-- Work that makes no transfer. -/
theorem silent {s t : State} (hh : t.host = s.host) (hf : t.flight.isSome = s.flight.isSome)
    (ht : t.trace = s.trace) : s.worksTo t :=
  ⟨hh, hf, [], ht, by simp⟩

/-- Work that makes one transfer. -/
theorem single {s t : State} {x : Transfer} (hx : x.inside = true) (hh : t.host = s.host)
    (hf : t.flight.isSome = s.flight.isSome) (ht : t.trace = x :: s.trace) : s.worksTo t :=
  ⟨hh, hf, [x], ht, by simpa using hx⟩

theorem refl (s : State) : s.worksTo s := silent rfl rfl rfl

theorem trans {s t u : State} (h1 : s.worksTo t) (h2 : t.worksTo u) : s.worksTo u := by
  obtain ⟨hh1, hf1, fresh1, ht1, hx1⟩ := h1
  obtain ⟨hh2, hf2, fresh2, ht2, hx2⟩ := h2
  refine ⟨hh2.trans hh1, hf2.trans hf1, fresh2 ++ fresh1, by rw [ht2, ht1, List.append_assoc], ?_⟩
  intro x hx
  exact (List.mem_append.1 hx).elim (hx2 x) (hx1 x)

/-- Work adds no command transfer. -/
theorem filter_isCmd {s t : State} (h : s.worksTo t) :
    t.trace.filter Transfer.isCmd = s.trace.filter Transfer.isCmd := by
  obtain ⟨-, -, fresh, ht, hx⟩ := h
  have hnone : fresh.filter Transfer.isCmd = [] := by
    rw [List.filter_eq_nil_iff]
    intro x hmem
    have := hx x hmem
    cases x <;> simp_all [Transfer.isCmd, Transfer.inside]
  rw [ht, List.filter_append, hnone, List.nil_append]

end State.worksTo

theorem respond_worksTo (s : State) (r : Result) : s.worksTo (s.respond r) := .silent rfl (by simp) rfl

theorem raise_worksTo (s : State) (r : Result) : s.worksTo (s.raise r) := .silent (by simp) (by simp) (by simp)

theorem draw_worksTo (s : State) (f : Flight) : s.worksTo (s.draw f) := .silent rfl rfl rfl

/-- A refill makes one block request, or does nothing. -/
theorem refill_worksTo {B : Config.BlockFn} {s s1 : State} (h : s.refill B = some s1) : s.worksTo s1 := by
  rcases refill_cases B s with ⟨-, e⟩ | ⟨-, -, e⟩ | ⟨-, -, e⟩ <;> rw [h] at e <;> cases e
  · exact .refl s
  · exact .single rfl rfl rfl rfl

/-- A byte of APPLY is one read and one write. -/
theorem xorByte_worksTo (s : State) (dst src : Word) : s.worksTo (s.xorByte dst src) :=
  .trans (.single (t := (s.memRead src).2) rfl rfl rfl rfl) (.single rfl rfl rfl rfl)

theorem applyBytes_worksTo (B : Config.BlockFn) (n : Nat) (dst src : Word) (s : State) :
    s.worksTo (applyBytes B n dst src s).1 := by
  induction n generalizing dst src s with
  | zero => exact .refl s
  | succ n ih =>
    rw [applyBytes]
    cases h : s.refill B with
    | none => exact .refl s
    | some s1 => exact (refill_worksTo h).trans ((xorByte_worksTo s1 dst src).trans (ih _ _ _))

theorem finish_worksTo (r : State × Bool) : r.1.worksTo (finish r) := by
  unfold finish
  split
  · exact respond_worksTo _ _
  · exact raise_worksTo _ _

/-- A construction is forty reads (41_new.md R112). -/
theorem constructFrom_worksTo (s : State) (get : Nat → Word → Byte) (kaddr naddr : Word) :
    s.worksTo (s.constructFrom get kaddr naddr) := by
  obtain ⟨key, nonce, e, -⟩ := constructFrom_eq s get kaddr naddr
  rw [e]
  refine ⟨rfl, rfl, _, (List.append_assoc ..).symm, fun x hx => ?_⟩
  simp only [List.mem_append, List.mem_reverse, List.mem_map] at hx
  rcases hx with ⟨j, -, rfl⟩ | ⟨j, -, rfl⟩ <;> rfl

/-- A whole command, once accepted, is work on it. -/
theorem exec_worksTo {i : Instr} {s t : State} (h : exec i s = .next t) : (s.accept (some i)).worksTo t := by
  obtain ⟨-, -, hcases⟩ := exec_cases h
  rcases hcases with ⟨r, rfl, -, -⟩ | ⟨kaddr, naddr, -, rfl⟩ | ⟨dst, src, len, -, -, rfl⟩
  · exact respond_worksTo (s.accept (some i)) r
  · exact (constructFrom_worksTo ..).trans (respond_worksTo ..)
  · exact (applyBytes_worksTo ..).trans (finish_worksTo _)

section Micro
variable {s : State} {f : Flight} (hf : s.flight = some f)
include hf

theorem goto_worksTo (g : Flight) (p : Phase) : s.worksTo (s.goto g p) := .silent rfl (by simp [hf]) rfl

theorem microCheck_worksTo : s.worksTo (microCheck f s) := by
  rcases microCheck_cases f s with ⟨r, -, -, e⟩ | ⟨_, _, -, e⟩ | ⟨_, _, _, -, -, e⟩ <;> rw [e]
  · exact raise_worksTo s r
  · exact goto_worksTo hf f _
  · exact goto_worksTo hf f _

theorem microLoop_worksTo (B : Config.BlockFn) (len : Word) : s.worksTo (microLoop B f len s) := by
  rcases microLoop_cases B f len s with ⟨-, e⟩ | ⟨-, -, -, e⟩ | ⟨-, -, -, e⟩ | ⟨-, -, e⟩ <;> rw [e]
  · exact respond_worksTo s _
  · exact raise_worksTo s _
  · exact .single rfl rfl rfl rfl
  · exact goto_worksTo hf _ _

theorem microStep_worksTo {B : Config.BlockFn} {t : State} (h : microStep B f s = .next t) : s.worksTo t := by
  have hsome : ∀ g : Flight, (some g).isSome = s.flight.isSome := fun g => by rw [hf]; rfl
  obtain ⟨-, hcases⟩ := microStep_cases h
  rcases hcases with ⟨-, rfl⟩ | ⟨kaddr, _, naddr, _, -, -, rfl⟩ | ⟨_, _, _, len, -, -, rfl⟩ |
    ⟨_, _, src, _, k, -, -, rfl⟩ | ⟨dst, _, _, _, k, -, -, hw⟩ | ⟨_, _, _, _, -, -, rfl⟩ | ⟨w, -, rfl⟩
  · exact microCheck_worksTo hf
  · exact (constructFrom_worksTo ..).trans ((draw_worksTo _ f).trans (respond_worksTo _ .ok))
  · exact microLoop_worksTo hf B len
  · exact .single rfl rfl (hsome _) rfl
  · obtain ⟨-, rfl⟩ := microWrite_cases hw
    exact .single rfl rfl (hsome _) rfl
  · exact .silent rfl (hsome _) rfl
  · exact .refl _

end Micro

/-- SCKM's own act is work on the command in flight; with none it does nothing. -/
theorem advance_worksTo {B : Config.BlockFn} {s t : State} (h : advance B s = .next t) : s.worksTo t := by
  rcases advance_cases h with ⟨-, rfl⟩ | ⟨f, hf, hmicro⟩
  · exact .refl _
  · exact microStep_worksTo hf hmicro

/-! ## A busy command port -/

/-- A packet for a busy port waits, and SCKM goes on (10_state.md R40, R41; log entry 4). -/
theorem step_waiting {s : State} {f : Flight} {p : Packet} {rest : List HostAction} (hf : s.flight = some f)
    (hh : s.host = .send p :: rest ∨ s.host = .offer p :: rest) : step s = advance Config.blockFn s := by
  have hbusy : s.cmdReady = false := by rw [State.cmdReady, hf]; rfl
  rcases hh with hh | hh <;> simp [step, hh, hbusy]

/-- Settles O11: the step is SCKM's own, and that is work on the command in flight. -/
theorem busyPortTakesNoPacket : Obligations.BusyPortTakesNoPacket := by
  unfold Obligations.BusyPortTakesNoPacket
  intro s f p rest hf hh
  have hstep := step_waiting hf hh
  refine ⟨hstep, fun t ht => ?_⟩
  have hwork := advance_worksTo (hstep.symm.trans ht)
  exact ⟨hwork.host, by rw [hwork.flight, hf]; rfl, hwork.filter_isCmd⟩

/-! ## The alternation of commands and responses -/

/-- Memory and block transfers of a command in flight leave it in flight. -/
theorem portsInFlight_append_inside {fresh r : List Transfer} (hx : ∀ x ∈ fresh, x.inside = true)
    (hr : portsInFlight r = some true) : portsInFlight (fresh ++ r) = some true := by
  induction fresh with
  | nil => exact hr
  | cons x fresh ih =>
    obtain ⟨hx, hrest⟩ := List.forall_mem_cons.1 hx
    have ih := ih hrest
    cases x <;> simp_all [Transfer.inside, portsInFlight]

/-- The recorded transfers alternate, and agree with whether a command is in flight. -/
def State.portsAgree (s : State) : Prop := portsInFlight s.trace = some s.flight.isSome

/-- Work on a command in flight keeps the alternation. -/
theorem State.worksTo.portsAgree {s t : State} (h : s.worksTo t) (hf : s.flight.isSome = true)
    (hp : s.portsAgree) : t.portsAgree := by
  obtain ⟨-, hflight, fresh, ht, hx⟩ := h
  unfold State.portsAgree at hp ⊢
  rw [hf] at hp
  rw [ht, hflight, hf, portsInFlight_append_inside hx hp]

theorem advance_portsAgree {B : Config.BlockFn} {s t : State} (hp : s.portsAgree) (h : advance B s = .next t) :
    t.portsAgree := by
  rcases advance_cases h with ⟨-, rfl⟩ | ⟨f, hf, -⟩
  · exact hp
  · exact (advance_worksTo h).portsAgree (by rw [hf]; rfl) hp

/-- A packet accepted on an idle port puts a command in flight. -/
theorem accept_portsAgree {s : State} (hf : s.flight = none) (hp : s.portsAgree) (p : Packet) (c : Option Instr) :
    ((s.log (.cmd p)).accept c).portsAgree := by
  rw [State.portsAgree, hf] at hp
  simp [State.portsAgree, portsInFlight, hp]

theorem takeResponse_portsAgree {s : State} (hp : s.portsAgree) {w : Word} (hrsp : s.rspData = some w) :
    (s.takeResponse w).portsAgree := by
  obtain ⟨f, hf, -⟩ := rspData_eq_some hrsp
  rw [State.portsAgree, hf] at hp
  simp [State.portsAgree, portsInFlight, hp]

/-- A RESET ends a command without a response (70_reset_and_hazards.md R181). -/
theorem hardReset_portsAgree {s : State} (hp : s.portsAgree) : s.hardReset.portsAgree := by
  rw [State.portsAgree] at hp
  simp [State.portsAgree, portsInFlight, hp]

theorem hostWrite_portsAgree {s : State} (hp : s.portsAgree) (a : Word) (v : Byte) : (hostWrite a v s).portsAgree := by
  have hflight : (hostWrite a v s).flight.isSome = s.flight.isSome := by
    rw [hostWrite_flight]
    split <;> simp [State.noteRace]
  rw [State.portsAgree, hostWrite_trace, hflight]
  exact hp

/-- Settles O42: a command and a response change which of the two comes next, and work on a command adds transfers
only between them. -/
theorem stepKeepsPortsAlternating : Obligations.StepKeepsPortsAlternating := by
  unfold Obligations.StepKeepsPortsAlternating
  intro s t (hp : s.portsAgree) hstep
  show t.portsAgree
  rcases step_cases hstep with ⟨-, hadv⟩ | ⟨rest, -, hadv⟩ | ⟨p, rest, i, -, hf, -, hexec⟩ |
    ⟨p, rest, r, -, hf, -, -, rfl⟩ | ⟨p, rest, -, hf, rfl⟩ | ⟨w, rest, -, hrsp, rfl⟩ | ⟨rest, -, rfl⟩ |
    ⟨a, v, rest, -, rfl⟩ | ⟨a, rest, -, rfl⟩
  · exact advance_portsAgree hp hadv
  · exact advance_portsAgree (s := s.withHost rest) hp hadv
  · exact (exec_worksTo hexec).portsAgree rfl (accept_portsAgree (s := s.withHost rest) hf hp p _)
  · exact accept_portsAgree (s := s.withHost rest) hf hp p none
  · exact accept_portsAgree (s := s.withHost rest) hf hp p _
  · exact takeResponse_portsAgree (s := s.withHost rest) hp hrsp
  · exact hardReset_portsAgree (s := s.withHost rest) hp
  · exact hostWrite_portsAgree (s := s.withHost rest) hp a v
  · exact hp

end Sys2Proof.Machine

/-! What a step does to the instance: `ST`, `KEY`, `NONCE` and `COUNTER` (10_state.md R23, R26, R28, R29). -/

namespace Sys2Proof.Machine

/-- The instance goes on from `s` to `t`: its key and nonce stay, its counter does not go back, and its status stays
but where READY ends in DEAD with `CounterExhausted`. -/
structure State.keepsInstance (s t : State) : Prop where
  key : t.key = s.key
  nonce : t.nonce = s.nonce
  counter : s.counter.toNat ≤ t.counter.toNat
  st : t.st = s.st ∨ (s.st = .ready ∧ t.st = .dead ∧ t.answered .counterExhausted)

/-- What leaves the four registers alone keeps the instance. -/
theorem keepsInstance_of_same {s t : State} (hk : t.key = s.key) (hn : t.nonce = s.nonce)
    (hc : t.counter = s.counter) (hst : t.st = s.st) : s.keepsInstance t :=
  ⟨hk, hn, by rw [hc], .inl hst⟩

/-! ## Operations of a command -/

theorem respond_answered {s : State} {f : Flight} (hf : s.flight = some f) (r : Result) : (s.respond r).answered r := by
  simp [State.answered, State.rspData, hf]

/-- Raising an error of a command in flight; an EMPTY block is never exhausted (10_state.md R32). -/
theorem raise_keepsInstance {s : State} {f : Flight} (hf : s.flight = some f) (r : Result)
    (hr : r = .counterExhausted → s.st ≠ .empty) : s.keepsInstance (s.raise r) := by
  refine ⟨by simp, by simp, by simp, ?_⟩
  by_cases he : r = .counterExhausted
  case neg => exact .inl (by simp [he])
  case pos =>
    subst he
    cases hst : s.st
    · exact absurd hst (hr rfl)
    · exact .inr ⟨rfl, rfl, respond_answered (s := { s with st := .dead }) hf _⟩
    · exact .inl rfl

theorem ne_empty_of_exhausted {s : State} (hr : s.regsLegal = true) (hmax : s.counter = Config.counterMax) :
    s.st ≠ .empty := by
  intro hst
  rw [State.regsLegal, decide_eq_true_eq, hmax] at hr
  exact absurd (hr.2 hst).1 (by decide)

theorem refill_counter_le {B : Config.BlockFn} {s s1 : State} (h : s.refill B = some s1) :
    s.counter.toNat ≤ s1.counter.toNat := by
  rcases refill_cases B s with ⟨-, e⟩ | ⟨-, -, e⟩ | ⟨-, hmax, e⟩ <;> rw [h] at e <;> cases e
  · exact le_rfl
  · rw [counter_succ_toNat hmax]; omega

theorem applyBytes_counter_le (B : Config.BlockFn) (n : Nat) (dst src : Word) (s : State) :
    s.counter.toNat ≤ (applyBytes B n dst src s).1.counter.toNat := by
  induction n generalizing dst src s with
  | zero => exact le_rfl
  | succ n ih =>
    rw [applyBytes]
    cases h : s.refill B with
    | none => exact le_rfl
    | some s1 => exact (refill_counter_le h).trans (ih (dst + 1#32) (src + 1#32) (s1.xorByte dst src))

theorem finish_keepsInstance {r : State × Bool} {f : Flight} (hf : r.1.flight = some f) (hst : r.1.st = .ready) :
    r.1.keepsInstance (finish r) := by
  unfold finish
  split
  · exact keepsInstance_of_same rfl rfl rfl rfl
  · exact raise_keepsInstance hf _ (by simp [hst])

/-- What a whole command does to the instance: NEW constructs another; any other keeps it. -/
theorem exec_instance {i : Instr} {s t : State} (h : exec i s = .next t) :
    ((∃ kaddr naddr, i = .new kaddr 32#32 naddr 8#32) ∧ t.st = .ready ∧ t.answered .ok) ∨ s.keepsInstance t := by
  obtain ⟨-, -, hcases⟩ := exec_cases h
  rcases hcases with ⟨r, rfl, -, -⟩ | ⟨kaddr, naddr, rfl, rfl⟩ | ⟨dst, src, len, -, hst, rfl⟩
  · exact .inr (keepsInstance_of_same rfl rfl rfl rfl)
  · exact .inl ⟨⟨kaddr, naddr, rfl⟩, rfl, respond_answered (constructFrom_flight ..) _⟩
  · right
    have hcount := applyBytes_counter_le Config.blockFn len.toNat dst src (s.accept (some i))
    obtain ⟨hkey, hnonce, hst', hf, -⟩ := applyBytes_frame Config.blockFn len.toNat dst src (s.accept (some i))
    generalize applyBytes Config.blockFn len.toNat dst src (s.accept (some i)) = r at *
    have hend := finish_keepsInstance hf (hst'.trans hst)
    exact ⟨hend.key.trans hkey, hend.nonce.trans hnonce, hcount.trans hend.counter, by simpa [hst'] using hend.st⟩

section Micro
variable {s : State} {f : Flight} (hf : s.flight = some f)
include hf

theorem microCheck_keepsInstance : s.keepsInstance (microCheck f s) := by
  rcases microCheck_cases f s with ⟨r, -, hd, e⟩ | ⟨_, _, -, e⟩ | ⟨_, _, _, -, -, e⟩ <;> rw [e]
  · exact raise_keepsInstance hf r fun hr => by simp [hd hr]
  · exact keepsInstance_of_same rfl rfl rfl rfl
  · exact keepsInstance_of_same rfl rfl rfl rfl

theorem microLoop_keepsInstance (hr : s.regsLegal = true) (B : Config.BlockFn) (len : Word) :
    s.keepsInstance (microLoop B f len s) := by
  rcases microLoop_cases B f len s with ⟨-, e⟩ | ⟨-, -, hmax, e⟩ | ⟨-, -, hmax, e⟩ | ⟨-, -, e⟩ <;> rw [e]
  · exact keepsInstance_of_same rfl rfl rfl rfl
  · exact raise_keepsInstance hf _ fun _ => ne_empty_of_exhausted hr hmax
  · exact ⟨rfl, rfl, by rw [counter_succ_toNat hmax]; omega, .inl rfl⟩
  · exact keepsInstance_of_same rfl rfl rfl rfl

/-- What a micro-operation does to the instance: the construction of a NEW makes another; any other keeps it. -/
theorem microStep_instance {B : Config.BlockFn} {t : State} (h : microStep B f s = .next t) :
    (f.phase = .construct ∧ t.st = .ready ∧ t.answered .ok) ∨ s.keepsInstance t := by
  obtain ⟨hr, hcases⟩ := microStep_cases h
  rcases hcases with ⟨-, rfl⟩ | ⟨kaddr, _, naddr, _, hp, -, rfl⟩ | ⟨_, _, _, len, -, -, rfl⟩ |
    ⟨_, _, src, _, k, -, -, rfl⟩ | ⟨dst, _, _, _, k, -, -, hw⟩ | ⟨_, _, _, _, -, -, rfl⟩ | ⟨w, -, rfl⟩
  · exact .inr (microCheck_keepsInstance hf)
  · refine .inl ⟨hp, rfl, respond_answered (f := f) ?_ _⟩
    rw [State.draw_flight, constructFrom_flight, hf]
  · exact .inr (microLoop_keepsInstance hf hr B len)
  · exact .inr (keepsInstance_of_same rfl rfl rfl rfl)
  · obtain ⟨-, rfl⟩ := microWrite_cases hw
    exact .inr (keepsInstance_of_same rfl rfl rfl rfl)
  · exact .inr (keepsInstance_of_same rfl rfl rfl rfl)
  · exact .inr (keepsInstance_of_same rfl rfl rfl rfl)

end Micro

theorem advance_instance {B : Config.BlockFn} {s t : State} (h : advance B s = .next t) :
    ((∃ f, s.flight = some f ∧ f.phase = .construct) ∧ t.st = .ready ∧ t.answered .ok) ∨ s.keepsInstance t := by
  rcases advance_cases h with ⟨-, rfl⟩ | ⟨f, hf, hmicro⟩
  · exact .inr (keepsInstance_of_same rfl rfl rfl rfl)
  · exact (microStep_instance hf hmicro).imp_left fun ⟨hp, ht⟩ => ⟨⟨f, hf, hp⟩, ht⟩

/-! ## The step -/

/-- What a step does to the instance: a RESET ends it, a construction makes another, and any other step keeps it. -/
theorem step_instance {s t : State} (hstep : step s = .next t) :
    (s.resets ∧ t.st = .empty) ∨ (s.constructs ∧ t.st = .ready ∧ t.answered .ok) ∨ s.keepsInstance t := by
  rcases step_cases hstep with ⟨hown, hadv⟩ | ⟨rest, hh, hadv⟩ | ⟨p, rest, i, hh, hf, hd, hexec⟩ |
    ⟨p, rest, r, -, -, -, -, rfl⟩ | ⟨p, rest, -, -, rfl⟩ | ⟨w, rest, -, -, rfl⟩ | ⟨rest, hh, rfl⟩ |
    ⟨a, v, rest, -, rfl⟩ | ⟨a, rest, -, rfl⟩
  · rcases advance_instance hadv with ⟨hc, ht⟩ | hkeep
    · exact .inr (.inl ⟨.inr ⟨hown, hc⟩, ht⟩)
    · exact .inr (.inr hkeep)
  · have hown : s.ownStep = true := by rw [State.ownStep, hh]
    rcases advance_instance hadv with ⟨hc, ht⟩ | hkeep
    · exact .inr (.inl ⟨.inr ⟨hown, hc⟩, ht⟩)
    · exact .inr (.inr ⟨hkeep.key, hkeep.nonce, hkeep.counter, hkeep.st⟩)
  · rcases exec_instance hexec with ⟨⟨kaddr, naddr, rfl⟩, ht⟩ | hkeep
    · exact .inr (.inl ⟨.inl ⟨p, rest, kaddr, naddr, hf, hh, hd⟩, ht⟩)
    · exact .inr (.inr ⟨hkeep.key, hkeep.nonce, hkeep.counter, hkeep.st⟩)
  · exact .inr (.inr (keepsInstance_of_same rfl rfl rfl rfl))
  · exact .inr (.inr (keepsInstance_of_same rfl rfl rfl rfl))
  · exact .inr (.inr (keepsInstance_of_same rfl rfl rfl rfl))
  · exact .inl ⟨⟨rest, hh⟩, rfl⟩
  · exact .inr (.inr (keepsInstance_of_same (by simp) (by simp) (by simp) (by simp)))
  · exact .inr (.inr (keepsInstance_of_same rfl rfl rfl rfl))

/-- Settles O43: a step that neither resets nor constructs changes `ST` only from READY to DEAD. -/
theorem statusChangesOnlyByItsEvents : Obligations.StatusChangesOnlyByItsEvents := by
  unfold Obligations.StatusChangesOnlyByItsEvents
  intro s t hstep hne
  rcases step_instance hstep with hreset | hnew | hkeep
  · exact .inl hreset
  · exact .inr (.inl hnew)
  · exact .inr (.inr (hkeep.st.resolve_left hne))

/-- Settles O44: a step that neither resets nor constructs keeps the instance. -/
theorem keyIsImmutableAndCounterMonotonic : Obligations.KeyIsImmutableAndCounterMonotonic := by
  unfold Obligations.KeyIsImmutableAndCounterMonotonic
  intro s t hstep hreset hnew
  rcases step_instance hstep with ⟨h, -⟩ | ⟨h, -⟩ | hkeep
  · exact absurd h hreset
  · exact absurd h hnew
  · exact ⟨hkeep.key, hkeep.nonce, hkeep.counter⟩

end Sys2Proof.Machine

/-! Byte lanes of a wide port (10_state.md R44). -/

namespace Sys2Proof.Machine

theorem byteLanes_lt (l : List Byte) : byteLanes l < 256 ^ l.length := by
  induction l with
  | nil => simp [byteLanes]
  | cons b l ih =>
    have := b.isLt
    rw [byteLanes, List.length_cons, Nat.pow_succ]
    omega

/-- Lane `j` of the number that a bus carries is byte `j`. -/
theorem byteLanes_lane (l : List Byte) (j : Nat) (hj : j < l.length) :
    byteLanes l / 256 ^ j % 256 = l[j].toNat := by
  induction l generalizing j with
  | nil => simp at hj
  | cons b l ih =>
    have hb := b.isLt
    cases j with
    | zero => simp only [byteLanes, List.getElem_cons_zero]; omega
    | succ j =>
      have htail : byteLanes (b :: l) / 256 = byteLanes l := by simp only [byteLanes]; omega
      rw [Nat.pow_succ', ← Nat.div_div_eq_div_mul, htail, List.getElem_cons_succ]
      exact ih j (by simpa using hj)

/-- A bus as wide as its array carries the whole number. -/
theorem onBus_toNat {n : Nat} (v : Bytes n) : (onBus (8 * n) v).toNat = byteLanes v.toList := by
  have hlt := byteLanes_lt v.toList
  rw [Vector.length_toList, show 256 = 2 ^ 8 by rfl, ← Nat.pow_mul] at hlt
  rw [onBus, BitVec.toNat_ofNat, Nat.mod_eq_of_lt hlt]

/-- Settles O17: the bits from `8 * j` up are lane `j`. -/
theorem busLanesCarryTheBytes : Obligations.BusLanesCarryTheBytes := by
  unfold Obligations.BusLanesCarryTheBytes
  intro n v j
  apply BitVec.eq_of_toNat_eq
  rw [BitVec.extractLsb'_toNat, onBus_toNat, Nat.shiftRight_eq_div_pow, Nat.pow_mul]
  simpa using byteLanes_lane v.toList j.val (by simp)

end Sys2Proof.Machine

/-! Consumed keystream bytes (10_state.md R24, R28 item 2). -/

namespace Sys2Proof.Machine

/-- The bytes `old` in the place of `KSBLOCK` differ from it at most in bytes already consumed, those below `OFFSET`. -/
def State.agreesAhead (s : State) (old : Bytes 64) : Prop :=
  ∀ j : Fin 64, s.offset.toNat ≤ j.val → old[j] = s.ksblock[j]

/-- `s` with other bytes in the cached block. -/
def State.withBlock (s : State) (old : Bytes 64) : State := { s with ksblock := old }

section Consumed
variable {s : State} {old : Bytes 64} (ha : s.agreesAhead old)
include ha

theorem ksNext_withBlock (ho : s.offset.toNat < 64) : (s.withBlock old).ksNext = s.ksNext := by
  simpa [State.ksNext, State.withBlock, ho] using ha ⟨s.offset.toNat, ho⟩ le_rfl

theorem xorByte_withBlock (ho : s.offset.toNat < 64) (dst src : Word) :
    (s.withBlock old).xorByte dst src = (s.xorByte dst src).withBlock old := by
  rw [State.xorByte, ksNext_withBlock ha ho]; rfl

/-- One byte further the blocks agree from there on. -/
theorem agreesAhead_xorByte (ho : s.offset.toNat < 64) (dst src : Word) :
    (s.xorByte dst src).agreesAhead old := by
  intro j hj
  have hoff : (s.xorByte dst src).offset.toNat = s.offset.toNat + 1 := takeOffset_toNat (s := s) (n := 1) (by omega)
  exact ha j (by omega)

/-- A refill of the two states: the same, but for consumed bytes. -/
theorem refill_withBlock (B : Config.BlockFn) :
    (s.refill B = none ∧ (s.withBlock old).refill B = none) ∨
    ∃ s1 old1, s.refill B = some s1 ∧ (s.withBlock old).refill B = some (s1.withBlock old1) ∧ s1.agreesAhead old1 := by
  rcases refill_cases B s with ⟨h64, e⟩ | ⟨h64, hmax, e⟩ | ⟨h64, hmax, e⟩
  · exact .inr ⟨s, old, e, by simp [State.refill, State.pbbExhausted, State.withBlock, h64], ha⟩
  · exact .inl ⟨e, by simp [State.refill, State.pbbExhausted, State.withBlock, h64, gen_exhausted, hmax]⟩
  · refine .inr ⟨_, B s.key s.nonce s.counter, e, ?_, fun _ _ => rfl⟩
    have hp : (s.withBlock old).pbbExhausted = true := decide_eq_true h64
    rw [State.refill, if_pos hp, gen_eq B (s.withBlock old) hmax]; rfl

end Consumed

/-- The bytes of an APPLY on the two states: the same run, and the ends differ at most in consumed bytes. -/
theorem applyBytes_withBlock (B : Config.BlockFn) (n : Nat) (dst src : Word) {s : State} {old : Bytes 64}
    (ho : s.offset.toNat ≤ 64) (ha : s.agreesAhead old) :
    ∃ old', applyBytes B n dst src (s.withBlock old) =
        ((applyBytes B n dst src s).1.withBlock old', (applyBytes B n dst src s).2) ∧
      (applyBytes B n dst src s).1.agreesAhead old' := by
  induction n generalizing dst src s old with
  | zero => exact ⟨old, rfl, ha⟩
  | succ n ih =>
    rcases refill_withBlock ha B with ⟨e, e'⟩ | ⟨s1, old1, e, e', ha1⟩ <;> simp only [applyBytes, e, e']
    · exact ⟨old, rfl, ha⟩
    · have ho1 := refill_offset e ho
      have hoff : (s1.xorByte dst src).offset.toNat = s1.offset.toNat + 1 :=
        takeOffset_toNat (s := s1) (n := 1) (by omega)
      rw [xorByte_withBlock ha1 ho1]
      exact ih _ _ (by omega) (agreesAhead_xorByte ha1 ho1 dst src)

theorem finish_withBlock (t : State) (ok : Bool) (old : Bytes 64) :
    finish (t.withBlock old, ok) = (finish (t, ok)).withBlock old := by
  cases ok <;> rfl

theorem finish_agreesAhead {r : State × Bool} {old : Bytes 64} (h : r.1.agreesAhead old) :
    (finish r).agreesAhead old := by
  intro j hj
  rw [finish_offset] at hj
  rw [finish_ksblock]
  exact h j hj

/-- APPLY on the two states. -/
theorem exec_apply_withBlock (dst dlen src slen : Word) {s : State} {old : Bytes 64} (hf : s.flight = none)
    (hr : s.regsLegal = true) (ha : s.agreesAhead old) :
    ∃ t old', exec (.apply dst dlen src slen) s = .next t ∧
      exec (.apply dst dlen src slen) (s.withBlock old) = .next (t.withBlock old') ∧ t.agreesAhead old' := by
  obtain ⟨hempty, hdead, hmismatch⟩ := exec_apply_checks dst dlen src slen hf hr
  obtain ⟨hempty', hdead', hmismatch'⟩ := exec_apply_checks (s := s.withBlock old) dst dlen src slen hf hr
  cases hst : s.st
  case empty => exact ⟨_, old, hempty hst, hempty' hst, ha⟩
  case dead => exact ⟨_, old, hdead hst, hdead' hst, ha⟩
  case ready =>
    by_cases hl : dlen = slen
    case neg => exact ⟨_, old, hmismatch hst hl, hmismatch' hst hl, ha⟩
    case pos =>
      subst hl
      obtain ⟨old', e, ha'⟩ := applyBytes_withBlock Config.blockFn dlen.toNat dst src
        (s := s.accept (some (.apply dst dlen src dlen))) (offset_le_of_regsLegal hr) ha
      refine ⟨_, old', exec_apply_bytes dst src dlen hf hr hst, ?_, finish_agreesAhead ha'⟩
      rw [exec_apply_bytes (s := s.withBlock old) dst src dlen hf hr hst, ← finish_withBlock]
      exact congrArg (fun r => Host.Outcome.next (finish r)) e

/-- Settles O33: the two runs read the same keystream bytes, since each reads at `OFFSET` and above. -/
theorem consumedKeystreamIsNeverUsed : Obligations.ConsumedKeystreamIsNeverUsed := by
  unfold Obligations.ConsumedKeystreamIsNeverUsed
  intro dst dlen src slen s old hf hr ha
  obtain ⟨t, old', ht, hu, ha'⟩ := exec_apply_withBlock dst dlen src slen hf hr ha
  exact ⟨t, t.withBlock old', ht, hu, rfl, ha'⟩

end Sys2Proof.Machine

/-! The command and response ports at rest (10_state.md R27, R33, R36, R41, R42). -/

namespace Sys2Proof.Machine

section Ready
variable {s : State} {p : Packet} {rest : List HostAction} (hf : s.flight = none)
include hf

/-- A ready port takes the command the host sends, and runs it whole. -/
theorem step_send_cmd {i : Instr} (hh : s.host = .send p :: rest) (hd : decode p = .cmd i) :
    step s = exec i ((s.withHost rest).log (.cmd p)) := by
  simp [step, hh, State.cmdReady, hf, hd]

/-- A ready port takes the packet the host offers, and latches its command. -/
theorem step_offer (hh : s.host = .offer p :: rest) :
    step s = .next (((s.withHost rest).log (.cmd p)).accept (packetCmd p)) := by
  simp [step, hh, State.cmdReady, hf]

end Ready

theorem step_take {s : State} {w : Word} {rest : List HostAction} (hh : s.host = .take :: rest)
    (hrsp : s.rspData = some w) : step s = .next ((s.withHost rest).takeResponse w) := by
  simp [step, hh, hrsp]

theorem packetCmd_of_cmd {p : Packet} {i : Instr} (hd : decode p = .cmd i) : packetCmd p = some i := by
  rw [packetCmd, hd]

theorem packetCmd_of_illegal {p : Packet} {r : Illegal} (hd : decode p = .illegal r) : packetCmd p = none := by
  rw [packetCmd, hd]

/-- SCKM's next act after the acceptance of an illegal packet answers it (30_encoding.md R76, R77). -/
theorem advance_accept_illegal {B : Config.BlockFn} {s : State} (hr : s.regsLegal = true) :
    advance B (s.accept none) = .next (s.ended none .illegalCommand) :=
  advance_flying { cmd := none, cur := 0#32, n := 0, data := 0#8, phase := .check } hr

/-- Settles O6: a ready port takes a packet sent, and runs its command whole. -/
theorem stepRunsTheDecodedCommand : Obligations.StepRunsTheDecodedCommand := by
  unfold Obligations.StepRunsTheDecodedCommand
  intro s p rest i hh hf hd
  exact (step_send_cmd hf hh hd).trans (congrArg (exec i) rfl)

/-- Settles O7: a ready port latches the command of a packet offered, none for an illegal packet. -/
theorem offeredPacketIsLatched : Obligations.OfferedPacketIsLatched := by
  unfold Obligations.OfferedPacketIsLatched
  intro s p rest hh hf
  refine ⟨fun i hd => ?_, fun r hd hr => ?_⟩
  · rw [step_offer hf hh, packetCmd_of_cmd hd]; rfl
  · rw [step_offer hf hh, packetCmd_of_illegal hd]
    exact ⟨_, rfl, rfl, advance_accept_illegal (s := (s.withHost rest).log (.cmd p)) hr⟩

/-- Settles O9: the table's values are those of `State.reset`. -/
theorem resetValues : Obligations.ResetValues := by
  unfold Obligations.ResetValues
  exact ⟨rfl, rfl, rfl, rfl, rfl, rfl, rfl, rfl⟩

/-- Settles O12: the step is the return, and that clears the command in flight alone. -/
theorem takingTheResponseFreesThePort : Obligations.TakingTheResponseFreesThePort := by
  unfold Obligations.TakingTheResponseFreesThePort
  intro s w rest hh hrsp
  exact ⟨_, step_take hh hrsp, rfl, rfl⟩

end Sys2Proof.Machine

/-! Other agents at buffer memory, and what a command's reads return when they race one (20_memory.md R56, R61, R62;
93_implementation_defined.md U9). -/

namespace Sys2Proof.Machine

/-! ## Another agent's access -/

theorem step_read {s : State} {a : Word} {rest : List HostAction} (hh : s.host = .read a :: rest) :
    step s = .next (s.withHost rest) := by
  simp [step, hh, hostRead]

theorem step_write {s : State} {a : Word} {v : Byte} {rest : List HostAction} (hh : s.host = .write a v :: rest) :
    step s = .next (hostWrite a v (s.withHost rest)) := by
  simp [step, hh]

/-- Another agent's write touches memory and the command in flight alone. -/
theorem hostWrite_eq (a : Word) (v : Byte) (s : State) :
    hostWrite a v s = { s with flight := (hostWrite a v s).flight, mem := (hostWrite a v s).mem } := by
  unfold hostWrite
  split <;> rfl

/-- The command in flight with the race at `a` noted, where memory holds `b` (log entry 7). -/
def Flight.raceAt (f : Flight) (a : Word) (b : Byte) : Flight :=
  { f with raced := a :: f.raced, held := (a.toNat, b) :: f.held }

/-- With no command in flight another agent's write has no race to note. -/
theorem hostWrite_idle {s : State} (hf : s.flight = none) (a : Word) (v : Byte) : (hostWrite a v s).flight = none := by
  rw [hostWrite_flight]
  simp [State.owns, hf]

section Flying
variable {s : State} {f : Flight} (hf : s.flight = some f)
include hf

/-- Another agent's write is noted with the command in flight exactly where that command owns the byte. -/
theorem hostWrite_flying (a : Word) (v : Byte) :
    (hostWrite a v s).flight = some (if s.owns a then f.raceAt a (s.byteAt a) else f) := by
  rw [hostWrite_flight]
  split
  · rw [State.noteRace, hf]; rfl
  · exact hf

/-- An illegal packet owns no byte. -/
theorem owns_illegal (hc : f.cmd = none) (a : Word) : s.owns a = false := by
  obtain ⟨cmd, _⟩ := f
  subst hc
  simp [State.owns, hf]

/-- A command owns the bytes of its buffers (20_memory.md R62). -/
theorem owns_command {i : Instr} (hc : f.cmd = some i) (a : Word) : s.owns a = (cmdReads i a || cmdWrites i a) := by
  obtain ⟨cmd, _⟩ := f
  subst hc
  simp [State.owns, hf]

end Flying

/-- Settles O13: a read is the identity, and a write touches one byte of memory and, where the command in flight owns
that byte, the command's note of the race. -/
theorem otherAgentsAccessIsPerformed : Obligations.OtherAgentsAccessIsPerformed := by
  unfold Obligations.OtherAgentsAccessIsPerformed
  intro s a v rest
  refine ⟨fun hh => step_read hh, fun hh => ⟨hostWrite a v (s.withHost rest), step_write hh, hostWrite_eq ..,
    hostWrite_byteAt_same .., fun b hb => hostWrite_byteAt_other v (s.withHost rest) hb, hostWrite_wf a v,
    fun hf => hostWrite_idle (s := s.withHost rest) hf a v, fun f hf => ?_⟩⟩
  have hflight := hostWrite_flying (s := s.withHost rest) hf a v
  refine ⟨fun hc => ?_, fun kaddr klen naddr nlen hc => ?_, fun dst dlen src slen hc => ?_⟩
  · rw [hflight, owns_illegal (s := s.withHost rest) hf hc]
    rfl
  · rw [hflight, owns_command (s := s.withHost rest) hf hc, cmdReads, cmdWrites, Bool.or_false]
    rfl
  · rw [hflight, owns_command (s := s.withHost rest) hf hc, cmdReads, cmdWrites, Bool.or_comm]
    rfl

/-! ## The reads of a command in flight -/

/-- At a location that no other agent has written the read returns the byte in memory. -/
theorem raceByte_unraced {f : Flight} {a : Word} (ha : a ∉ f.raced) (s : State) (k : Nat) :
    s.raceByte f k a = s.byteAt a :=
  if_neg ha

/-- What read number `k` of a micro-operation returns (20_memory.md R56, R62; 93_implementation_defined.md U9). -/
theorem raceByte_spec (s : State) (f : Flight) (k : Nat) (a : Word) :
    (a ∉ f.raced → s.raceByte f k a = s.byteAt a) ∧
    (s.raceByte f k a = s.byteAt a ∨ (a.toNat, s.raceByte f k a) ∈ f.held) :=
  ⟨fun ha => raceByte_unraced ha s k, (raceByte_held s f k a).imp_right And.right⟩

section Reads
variable {B : Config.BlockFn} {s : State} {f : Flight} (hf : s.flight = some f) (hr : s.regsLegal = true)
include hf hr

/-- SCKM's own act with a command in flight is the micro-operation of its phase. -/
theorem advance_inFlight : advance B s = microPhase B f s f.phase := by
  rw [advance, hf]
  exact if_pos hr

theorem advance_microRead {dst dlen src slen : Word} {k : Nat} (hc : f.cmd = some (.apply dst dlen src slen))
    (hp : f.phase = .read k) : advance B s = .next (microRead f src k s) := by
  rw [advance_inFlight hf hr, hp, microPhase, onApply, hc]

theorem advance_microConstruct {kaddr klen naddr nlen : Word} (hc : f.cmd = some (.new kaddr klen naddr nlen))
    (hp : f.phase = .construct) : advance B s = .next (microConstruct f kaddr naddr s) := by
  rw [advance_inFlight hf hr, hp, microPhase, onNew, hc]

end Reads

/-- The loads are recorded in order with the bytes loaded (41_new.md R112). -/
theorem constructFrom_trace (s : State) (get : Nat → Word → Byte) (kaddr naddr : Word) :
    (s.constructFrom get kaddr naddr).trace.reverse = s.trace.reverse ++
      (List.finRange 32).map (fun j => .memRead (bufAddr kaddr j.val) (s.constructFrom get kaddr naddr).key[j]) ++
      (List.finRange 8).map (fun j => .memRead (bufAddr naddr j.val) (s.constructFrom get kaddr naddr).nonce[j]) := by
  obtain ⟨key, nonce, e, hkey, hnonce⟩ := constructFrom_eq s get kaddr naddr
  rw [e]
  simp only [hkey, hnonce, ← List.map_coe_finRange_eq_range, List.map_map, List.reverse_append, List.reverse_reverse]
  rfl

/-- Each byte loaded is what its read returned. -/
theorem constructFrom_loads (s : State) (get : Nat → Word → Byte) (kaddr naddr : Word) :
    (∀ j : Fin 32, (s.constructFrom get kaddr naddr).key[j] = get j.val (bufAddr kaddr j.val)) ∧
    (∀ j : Fin 8, (s.constructFrom get kaddr naddr).nonce[j] = get (32 + j.val) (bufAddr naddr j.val)) := by
  obtain ⟨key, nonce, e, hkey, hnonce⟩ := constructFrom_eq s get kaddr naddr
  rw [e]
  exact ⟨hkey, hnonce⟩

@[simp] theorem constructFrom_host (s : State) (get : Nat → Word → Byte) (kaddr naddr : Word) :
    (s.constructFrom get kaddr naddr).host = s.host :=
  (constructFrom_worksTo s get kaddr naddr).host

/-! What the construction of a NEW in flight leaves: a fresh READY instance, the response OK, and memory and the
host's list as before (41_new.md R113, R114); its key and nonce are those loaded, and its transfers the loads. -/

section Construct
variable (s : State) (f : Flight) (kaddr naddr : Word)

theorem microConstruct_fresh :
    (microConstruct f kaddr naddr s).st = .ready ∧ (microConstruct f kaddr naddr s).counter = 0#64 ∧
      (microConstruct f kaddr naddr s).offset = 64#7 ∧ (microConstruct f kaddr naddr s).ksblock = Bytes.zero 64 := by
  simp [microConstruct]

theorem microConstruct_frame :
    (microConstruct f kaddr naddr s).mem = s.mem ∧ (microConstruct f kaddr naddr s).host = s.host := by
  simp [microConstruct]

theorem microConstruct_loads :
    (microConstruct f kaddr naddr s).key = (s.constructFrom (s.raceByte f) kaddr naddr).key ∧
      (microConstruct f kaddr naddr s).nonce = (s.constructFrom (s.raceByte f) kaddr naddr).nonce ∧
      (microConstruct f kaddr naddr s).trace = (s.constructFrom (s.raceByte f) kaddr naddr).trace := by
  simp [microConstruct]

end Construct

theorem microConstruct_answered {s : State} {f : Flight} (hf : s.flight = some f) (kaddr naddr : Word) :
    (microConstruct f kaddr naddr s).answered .ok := by
  refine respond_answered (f := f) ?_ _
  rw [State.draw_flight, constructFrom_flight, hf]

/-- Settles O14: every read of a command in flight is `raceByte`, which returns a byte the location held. -/
theorem racingReadReturnsAByteHeld : Obligations.RacingReadReturnsAByteHeld := by
  unfold Obligations.RacingReadReturnsAByteHeld
  intro B s f hf hr
  refine ⟨fun dst dlen src slen k hc hp => ?_, fun kaddr klen naddr nlen hc hp => ?_⟩
  · exact ⟨_, s.raceByte f 0 (src + f.cur + BitVec.ofNat 32 k), advance_microRead hf hr hc hp, rfl,
      raceByte_spec s f 0 _⟩
  · obtain ⟨hst, hcounter, hoffset, hksblock⟩ := microConstruct_fresh s f kaddr naddr
    obtain ⟨hmem, hhost⟩ := microConstruct_frame s f kaddr naddr
    obtain ⟨hkey, hnonce, htrace⟩ := microConstruct_loads s f kaddr naddr
    obtain ⟨hkeyByte, hnonceByte⟩ := constructFrom_loads s (s.raceByte f) kaddr naddr
    refine ⟨_, advance_microConstruct hf hr hc hp, hst, hcounter, hoffset, hksblock,
      microConstruct_answered hf kaddr naddr, hmem, hhost, ?_, ?_, ?_⟩
    · rw [htrace, hkey, hnonce]
      exact constructFrom_trace s (s.raceByte f) kaddr naddr
    · intro j
      rw [hkey, hkeyByte]
      exact raceByte_spec s f j.val _
    · intro j
      rw [hnonce, hnonceByte]
      exact raceByte_spec s f (32 + j.val) _

end Sys2Proof.Machine

/-! APPLY's accesses to buffer memory: overlap, order and frame (20_memory.md R59, R60, R67, R68). -/

namespace Sys2Proof.Machine

/-! ## Overlap -/

/-- With `0 < d < L` the first destination byte lies in both buffers. -/
theorem inBuffer_both_of_overlap {dst src len : Word} (h : readsBeforeWrites dst src len = false) :
    inBuffer dst len dst = true ∧ inBuffer src len dst = true := by
  have hlt : (dst - src).toNat < len.toNat := Nat.lt_of_not_le fun hle => of_decide_eq_false h (.inr hle)
  rw [inBuffer, inBuffer, BitVec.sub_self, decide_eq_true_eq, decide_eq_true_eq]
  exact ⟨Nat.zero_lt_of_lt hlt, hlt⟩

theorem readsBeforeWrites_aliased (buf len : Word) : readsBeforeWrites buf buf len = true := by
  simp [readsBeforeWrites, overlapDistance]

/-- Settles O27: were neither so, `DST` itself would lie in both buffers. -/
theorem disjointOrAliasedReadBeforeWritten : Obligations.DisjointOrAliasedReadBeforeWritten := by
  unfold Obligations.DisjointOrAliasedReadBeforeWritten
  rintro dst src len (rfl | hdisjoint)
  · exact readsBeforeWrites_aliased dst len
  · by_contra hoverlap
    exact hdisjoint dst (inBuffer_both_of_overlap (Bool.eq_false_of_not_eq_true hoverlap))

/-! ## Successful commands -/

/-- An APPLY within the usable stream processes all its bytes and answers OK (42_apply.md R123, R131). -/
theorem exec_apply_ok (dst src len : Word) {s : State} (hf : s.flight = none) (hr : s.regsLegal = true)
    (hst : s.st = .ready) (hc : s.cachedBlock Config.blockFn) (hpos : s.pos + len.toNat ≤ streamCapacity) :
    ∃ t, t = (applyBytes Config.blockFn len.toNat dst src (s.accept (some (.apply dst len src len)))).1 ∧
      exec (.apply dst len src len) s = .next (t.respond .ok) ∧ (t.respond .ok).answered .ok := by
  let s0 := s.accept (some (.apply dst len src len))
  obtain ⟨-, -, -, hflight, -⟩ := applyBytes_frame Config.blockFn len.toNat dst src s0
  obtain ⟨hall, -⟩ := applyBytes_pos len.toNat dst src (s := s0) (offset_le_of_regsLegal hr) (cachedBlock_accept _ hc)
  have hok : (applyBytes Config.blockFn len.toNat dst src s0).2 = true := hall.trans (decide_eq_true hpos)
  refine ⟨_, rfl, ?_, respond_answered hflight _⟩
  rw [exec_apply_bytes dst src len hf hr hst, finish, if_pos hok]

/-- Settles O28: with the whole command inside the stream every byte is one processed, and `d` is not 0. -/
theorem overlapRunsTheSerialLoop : Obligations.OverlapRunsTheSerialLoop := by
  unfold Obligations.OverlapRunsTheSerialLoop
  intro dst src len s hf hr hst hc hpos hd _
  obtain ⟨t, rfl, hexec, hok⟩ := exec_apply_ok dst src len hf hr hst hc hpos
  refine ⟨_, hexec, hok, fun i hi => ?_⟩
  have hdone : i < min len.toNat (streamCapacity - s.pos) := by unfold streamCapacity; omega
  have hout := applyBytes_output (dst := dst) (src := src) (s := s.accept (some (.apply dst len src len)))
    len.isLt.le (offset_le_of_regsLegal hr) (cachedBlock_accept _ hc) hdone
  simp only [hd.ne', false_or] at hout
  exact hout

/-- Settles O31: the accesses are those of the bytes one at a time, and the response makes none. -/
theorem applyAccessOrder : Obligations.ApplyAccessOrder := by
  unfold Obligations.ApplyAccessOrder
  intro dst src len s hf hr hst hc hpos
  obtain ⟨t, rfl, hexec, hok⟩ := exec_apply_ok dst src len hf hr hst hc hpos
  obtain ⟨new, hnew, haccess⟩ := applyBytes_accesses (dst := dst) (src := src)
    (s := s.accept (some (.apply dst len src len))) (offset_le_of_regsLegal hr) (cachedBlock_accept _ hc) hpos
  exact ⟨_, new, hexec, hok, hnew, haccess⟩

/-! ## The frame -/

/-- An address outside a buffer is the address of none of its bytes. -/
theorem ne_bufAddr_of_outside {base len a : Word} (h : inBuffer base len a = false) {i : Nat} (hi : i < len.toNat) :
    a ≠ bufAddr base i := by
  intro e
  rw [(inBuffer_iff base len a).2 ⟨i, hi, e⟩] at h
  cases h

/-- Settles O30: APPLY ends after its checks with nothing changed, or processes bytes, and these write the destination
alone. -/
theorem applyFrame : Obligations.ApplyFrame := by
  unfold Obligations.ApplyFrame
  intro dst dlen src slen s hf hr
  obtain ⟨t, hexec⟩ := exec_next (.apply dst dlen src slen) hf hr
  refine ⟨t, hexec, ?_⟩
  obtain ⟨-, -, hcases⟩ := exec_cases hexec
  rcases hcases with ⟨r, rfl, -, -⟩ | ⟨_, _, hi, -⟩ | ⟨_, _, _, hi, hst, rfl⟩
  · exact ⟨rfl, rfl, rfl, fun _ _ => rfl, fun _ => rfl⟩
  · cases hi
  · cases hi
    obtain ⟨hkey, hnonce, -, -, hhost⟩ := applyBytes_frame Config.blockFn dlen.toNat dst src
      (s.accept (some (.apply dst dlen src dlen)))
    refine ⟨by rw [finish_key]; exact hkey, by rw [finish_nonce]; exact hnonce, by rw [finish_host]; exact hhost,
      fun a ha => ?_, fun hfails => absurd ⟨hst, rfl⟩ hfails⟩
    rw [finish_byteAt]
    exact applyBytes_outside _ fun i hi => ne_bufAddr_of_outside ha hi

end Sys2Proof.Machine

/-! The command packet and the response word: decoding by the header word, and encoding as its inverse
(30_encoding.md R70 to R83). -/

namespace Sys2Proof

/-! ## Decoding by the header word -/

/-- The three kinds of packet, which exclude each other by their header word (30_encoding.md R75). -/
theorem decode_cases (p : Packet) :
    (packetWord p 0 = 1#32 ∧ decode p =
      .cmd (.new (packetWord p 1) (packetWord p 2) (packetWord p 3) (packetWord p 4))) ∨
    (packetWord p 0 = 2#32 ∧ decode p =
      .cmd (.apply (packetWord p 1) (packetWord p 2) (packetWord p 3) (packetWord p 4))) ∨
    ((packetWord p 0 ≠ 1#32 ∧ packetWord p 0 ≠ 2#32) ∧ ∃ r, decode p = .illegal r) := by
  obtain ⟨hnew, happly, hother⟩ := decode_header p
  by_cases h1 : packetWord p 0 = 1#32
  · exact .inl ⟨h1, hnew h1⟩
  by_cases h2 : packetWord p 0 = 2#32
  · exact .inr (.inl ⟨h2, happly h2⟩)
  · exact .inr (.inr ⟨⟨h1, h2⟩, hother h1 h2⟩)

theorem decode_new_iff (p : Packet) :
    packetWord p 0 = 1#32 ↔
      decode p = .cmd (.new (packetWord p 1) (packetWord p 2) (packetWord p 3) (packetWord p 4)) := by
  rcases decode_cases p with ⟨hw, hd⟩ | ⟨hw, hd⟩ | ⟨⟨h1, -⟩, r, hd⟩
  · simp [hw, hd]
  · simp [hw, hd]
  · simp [h1, hd]

theorem decode_apply_iff (p : Packet) :
    packetWord p 0 = 2#32 ↔
      decode p = .cmd (.apply (packetWord p 1) (packetWord p 2) (packetWord p 3) (packetWord p 4)) := by
  rcases decode_cases p with ⟨hw, hd⟩ | ⟨hw, hd⟩ | ⟨⟨-, h2⟩, r, hd⟩
  · simp [hw, hd]
  · simp [hw, hd]
  · simp [h2, hd]

theorem decode_illegal_iff (p : Packet) :
    (packetWord p 0 ≠ 1#32 ∧ packetWord p 0 ≠ 2#32) ↔ ∃ r, decode p = .illegal r := by
  rcases decode_cases p with ⟨hw, hd⟩ | ⟨hw, hd⟩ | ⟨hw, hd⟩
  · simp [hw, hd]
  · simp [hw, hd]
  · exact iff_of_true hw hd

/-! ## Encoding and decoding are inverse -/

@[simp] theorem decode_encode (i : Instr) : decode (encode i) = .cmd i := by
  cases i with
  | new kaddr klen naddr nlen =>
    obtain ⟨h0, h1, h2, h3, h4⟩ := packetWord_packetOf 1#32 kaddr klen naddr nlen
    rw [encode, (decode_new_iff _).1 h0, h1, h2, h3, h4]
  | apply dst dlen src slen =>
    obtain ⟨h0, h1, h2, h3, h4⟩ := packetWord_packetOf 2#32 dst dlen src slen
    rw [encode, (decode_apply_iff _).1 h0, h1, h2, h3, h4]

/-- A packet that decodes to a command is its header word and operand words put together, so it is the command's. -/
theorem encode_of_decode {p : Packet} {i : Instr} (h : decode p = .cmd i) : encode i = p := by
  rcases decode_cases p with ⟨hw, hd⟩ | ⟨hw, hd⟩ | ⟨-, r, hd⟩ <;> rw [hd] at h <;> cases h
  · rw [encode, ← hw, packetOf_packetWord]
  · rw [encode, ← hw, packetOf_packetWord]

/-- Settles O1: encoding is inverse to decoding from either side. -/
theorem decodesToExactlyTheEncodedCommand : Obligations.DecodesToExactlyTheEncodedCommand := by
  unfold Obligations.DecodesToExactlyTheEncodedCommand
  intro p i
  constructor
  · exact fun h => (encode_of_decode h).symm
  · rintro rfl
    exact decode_encode i

/-- Settles O2: each kind of packet by its header word, which alone tells whether a packet is illegal. -/
theorem headerWordDecidesTheCommand : Obligations.HeaderWordDecidesTheCommand := by
  unfold Obligations.HeaderWordDecidesTheCommand
  intro p
  refine ⟨decode_new_iff p, decode_apply_iff p, decode_illegal_iff p, fun q hq => ?_, ?_⟩
  · rw [← decode_illegal_iff, ← decode_illegal_iff, hq]
  · exact (decode_illegal_iff 0#160).1 (by decide)

/-! ## Written-out packets and the assembler notation -/

/-- Settles O3, by decoding the six packets. -/
theorem writtenOutPacketsDecode : Obligations.WrittenOutPacketsDecode := by
  unfold Obligations.WrittenOutPacketsDecode
  decide

/-- Settles O4: a pseudo-command and its abbreviation assemble to the same operand words. -/
theorem pseudoCommandsExpand : Obligations.PseudoCommandsExpand := by
  unfold Obligations.PseudoCommandsExpand
  exact ⟨fun _ _ _ => rfl, fun _ _ => rfl, fun _ _ => rfl, rfl⟩

end Sys2Proof

/-! What a command answers, and the response word that carries it (30_encoding.md R78 to R80). -/

namespace Sys2Proof.Machine

/-- The low byte of a response word is its status code (30_encoding.md R78). -/
theorem Result.word_status (r : Result) : r.word.extractLsb' 0 8 = r.code := by
  rw [Result.word]
  ext j hj
  have : j < 32 := by omega
  simp [hj, this]

/-- The upper 24 bits of a response word are zero (30_encoding.md R78). -/
theorem Result.word_upper (r : Result) : r.word.extractLsb' 8 24 = 0#24 := by
  rw [Result.word]
  ext j hj
  simp

/-- Settles O5: the word is the code zero extended, and the codes are those of the model's table. -/
theorem responseWordIsTheStatusCode : Obligations.ResponseWordIsTheStatusCode := by
  unfold Obligations.ResponseWordIsTheStatusCode
  exact ⟨fun r => ⟨r.word_status, r.word_upper⟩, rfl, rfl, rfl, rfl, rfl, rfl⟩

/-- NEW answers by its length check alone (41_new.md R111, R114). -/
theorem exec_new_answered (kaddr klen naddr nlen : Word) {s : State} (hf : s.flight = none)
    (hr : s.regsLegal = true) :
    ∃ t, exec (.new kaddr klen naddr nlen) s = .next t ∧
      t.answered (if newLengthsValid klen nlen then .ok else .invalidKeyOrNonceSize) := by
  cases hv : newLengthsValid klen nlen with
  | false => exact ⟨_, exec_new_invalid hf hr hv, ended_answered ..⟩
  | true =>
    obtain ⟨rfl, rfl⟩ := (newLengthsValid_iff klen nlen).1 hv
    exact ⟨_, exec_new_valid hf hr, respond_answered (constructFrom_flight ..) _⟩

/-- Past its checks APPLY answers OK, or CounterExhausted where the stream runs out (42_apply.md R123). -/
theorem exec_apply_ready_answered (dst src len : Word) {s : State} (hf : s.flight = none)
    (hr : s.regsLegal = true) (hst : s.st = .ready) :
    ∃ t, exec (.apply dst len src len) s = .next t ∧ (t.answered .ok ∨ t.answered .counterExhausted) := by
  refine ⟨_, exec_apply_bytes dst src len hf hr hst, ?_⟩
  obtain ⟨-, -, -, hflight, -⟩ := applyBytes_frame Config.blockFn len.toNat dst src
    (s.accept (some (.apply dst len src len)))
  have hanswer := finish_answered hflight
  split at hanswer
  · exact .inl hanswer
  · exact .inr hanswer

/-- Settles O39: NEW by its length check, APPLY by its instance and length checks, then its bytes. -/
theorem everyCommandIsAnswered : Obligations.EveryCommandIsAnswered := by
  unfold Obligations.EveryCommandIsAnswered
  intro s hf hr
  constructor
  · intro kaddr klen naddr nlen
    obtain ⟨t, hexec, hanswer⟩ := exec_new_answered kaddr klen naddr nlen hf hr
    refine ⟨t, hexec, ?_⟩
    split at hanswer
    · exact .inl hanswer
    · exact .inr hanswer
  · intro dst dlen src slen
    obtain ⟨hempty, hdead, hunequal⟩ := exec_apply_checks dst dlen src slen hf hr
    cases hst : s.st with
    | empty => exact ⟨_, hempty hst, .inr (.inr (.inr (ended_answered ..)))⟩
    | dead => exact ⟨_, hdead hst, .inr (.inr (.inl (ended_answered ..)))⟩
    | ready =>
      by_cases hlen : dlen = slen
      case neg => exact ⟨_, hunequal hst hlen, .inr (.inl (ended_answered ..))⟩
      case pos =>
        subst hlen
        obtain ⟨t, hexec, hok | hexhausted⟩ := exec_apply_ready_answered dst src dlen hf hr hst
        · exact ⟨t, hexec, .inl hok⟩
        · exact ⟨t, hexec, .inr (.inr (.inl hexhausted))⟩

end Sys2Proof.Machine

/-! The units APPLY is made of: GEN of the block counter unit, the run length and TAKE of the partial block buffer, and
the XOR run as one read and one write per byte (40_units_microops.md R91 to R98). -/

namespace Sys2Proof.Machine

/-- Settles O16: GEN is refused exactly at the last counter, and below it the increment does not wrap. -/
theorem genStoresTheNextBlock : Obligations.GenStoresTheNextBlock := by
  unfold Obligations.GenStoresTheNextBlock
  exact fun B s => ⟨gen_exhausted B s, fun h => ⟨gen_eq B s h, counter_succ_toNat h⟩⟩

/-- A run takes no more bytes than the cached block has left (40_units_microops.md R96). -/
theorem offset_add_runLen_le {s : State} (rem : Word) (ho : s.offset.toNat ≤ 64) :
    s.offset.toNat + s.runLen rem ≤ 64 := by
  have hleft : s.runLen rem ≤ 64 - s.offset.toNat := Nat.min_le_left ..
  omega

theorem runLen_pos {s : State} {rem : Word} (ho : s.offset.toNat < 64) (hr : 0 < rem.toNat) : 0 < s.runLen rem :=
  Nat.lt_min.2 ⟨Nat.sub_pos_of_lt ho, hr⟩

/-- Settles O18: the run length is positive and stays in the block, so `OFFSET` after it fits in its 7 bits. -/
theorem runLengthFitsTheBlock : Obligations.RunLengthFitsTheBlock := by
  unfold Obligations.RunLengthFitsTheBlock
  intro s rem ho hr
  have hfit := offset_add_runLen_le rem ho.le
  exact ⟨rfl, runLen_pos ho hr, by omega, takeOffset_toNat hfit, hfit⟩

/-- XOR with the bytes `ks` and then `ls` is the run of `ks`, then that of `ls` from the addresses behind it. -/
theorem xorBytes_append (ks ls : List Byte) (dst src : Word) (s : State) :
    xorBytes (ks ++ ls) dst src s =
      xorBytes ls (dst + BitVec.ofNat 32 ks.length) (src + BitVec.ofNat 32 ks.length) (xorBytes ks dst src s) := by
  induction ks generalizing dst src s with
  | nil => simp [xorBytes]
  | cons k ks ih =>
    have haddr : ∀ a : Word, a + 1#32 + BitVec.ofNat 32 ks.length = a + BitVec.ofNat 32 (k :: ks).length := by
      intro a
      rw [List.length_cons, BitVec.ofNat_add, BitVec.add_assoc, BitVec.add_comm 1#32]
    rw [List.cons_append, xorBytes_cons, xorBytes_cons, ih, haddr, haddr]

/-- A run one byte longer uses one more byte of `KSBLOCK`, the one at `OFFSET + n`. -/
theorem runBytes_succ (s : State) {n : Nat} (h : s.offset.toNat + n < 64) :
    (s.ksblock.toList.drop s.offset.toNat).take (n + 1) =
      (s.ksblock.toList.drop s.offset.toNat).take n ++ [s.ksblock[s.offset.toNat + n]] := by
  have hlen : n < (s.ksblock.toList.drop s.offset.toNat).length := by
    rw [List.length_drop, Vector.length_toList]; omega
  rw [List.take_succ_eq_append_getElem hlen, List.getElem_drop, Vector.getElem_toList]

/-- Settles O19: the last byte of a run is XORed `n` addresses behind the first, after all the others. -/
theorem xorRunIsTheByteLoop : Obligations.XorRunIsTheByteLoop := by
  unfold Obligations.XorRunIsTheByteLoop
  refine fun s dst src cur => ⟨rfl, fun n h => ?_⟩
  have hlen : ((s.ksblock.toList.drop s.offset.toNat).take n).length = n := by
    rw [List.length_take, List.length_drop, Vector.length_toList]; omega
  rw [State.xorRun, runBytes_succ s h, xorBytes_append, hlen, xorBytes_cons]
  rfl

end Sys2Proof.Machine

/-! NEW as a whole command: the construction of an instance, and the length check that refuses it
(41_new.md R111 to R116). -/

namespace Sys2Proof.Machine

/-! ## The construction without a race -/

section Construct
variable (s : State) (kaddr naddr : Word)

/-- The key and the nonce are their buffers' bytes (41_new.md R112). -/
theorem construct_loads :
    (∀ j : Fin 32, (s.construct kaddr naddr).key[j] = s.byteAt (bufAddr kaddr j.val)) ∧
    (∀ j : Fin 8, (s.construct kaddr naddr).nonce[j] = s.byteAt (bufAddr naddr j.val)) :=
  constructFrom_loads s (fun _ a => s.byteAt a) kaddr naddr

/-- The transfers are the loads alone: the key's, then the nonce's, each in increasing address order (41_new.md
R112). -/
theorem construct_trace :
    (s.construct kaddr naddr).trace.reverse = s.trace.reverse ++
      (List.range 32).map (fun j => .memRead (bufAddr kaddr j) (s.byteAt (bufAddr kaddr j))) ++
      (List.range 8).map (fun j => .memRead (bufAddr naddr j) (s.byteAt (bufAddr naddr j))) := by
  obtain ⟨key, nonce, e, -, -⟩ := construct_eq s kaddr naddr
  rw [e]
  simp only [List.reverse_append, List.reverse_reverse]

/-- The instance is a fresh one (41_new.md R113). -/
theorem construct_fresh :
    (s.construct kaddr naddr).counter = 0#64 ∧ (s.construct kaddr naddr).ksblock = Bytes.zero 64 ∧
      (s.construct kaddr naddr).offset = 64#7 ∧ (s.construct kaddr naddr).st = .ready := by
  simp [State.construct]

theorem construct_frame :
    (s.construct kaddr naddr).flight = s.flight ∧ (s.construct kaddr naddr).mem = s.mem ∧
      (s.construct kaddr naddr).host = s.host := by
  simp [State.construct]

end Construct

/-- At the reset values of `COUNTER` and `OFFSET` no keystream has been consumed (10_state.md R31). -/
theorem pos_eq_zero {s : State} (hcounter : s.counter = 0#64) (hoffset : s.offset = 64#7) : s.pos = 0 := by
  simp [State.pos, hcounter, hoffset]

/-- Settles O20: the construction loads the buffers and leaves a fresh instance, and the response changes neither. -/
theorem newConstructsTheInstance : Obligations.NewConstructsTheInstance := by
  unfold Obligations.NewConstructsTheInstance
  intro kaddr naddr s hf hr
  let s0 := s.accept (some (.new kaddr 32#32 naddr 8#32))
  obtain ⟨hkey, hnonce⟩ := construct_loads s0 kaddr naddr
  obtain ⟨hcounter, hksblock, hoffset, hst⟩ := construct_fresh s0 kaddr naddr
  obtain ⟨hflight, hmem, hhost⟩ := construct_frame s0 kaddr naddr
  exact ⟨(s0.construct kaddr naddr).respond .ok, exec_new_valid hf hr, hkey, hnonce, construct_trace s0 kaddr naddr,
    hcounter, hksblock, hoffset, hst, pos_eq_zero hcounter hoffset, respond_answered hflight _, hmem, hhost⟩

/-! ## The length check -/

/-- The check fails where a length is not the one legal (41_new.md R111). -/
theorem newLengthsValid_eq_false {klen nlen : Word} (h : ¬(klen.toNat = 32 ∧ nlen.toNat = 8)) :
    newLengthsValid klen nlen = false := by
  refine Bool.eq_false_of_not_eq_true fun hvalid => h ?_
  obtain ⟨rfl, rfl⟩ := (newLengthsValid_iff klen nlen).1 hvalid
  exact ⟨rfl, rfl⟩

/-- Settles O21: the length check comes before every load, and its error changes no register. -/
theorem newRejectsOtherLengths : Obligations.NewRejectsOtherLengths := by
  unfold Obligations.NewRejectsOtherLengths
  intro kaddr klen naddr nlen s hf hr hlengths
  exact exec_new_invalid hf hr (newLengthsValid_eq_false hlengths)

end Sys2Proof.Machine

/-! APPLY as a whole command: its checks, the registers it ends in, the keystream it applies, the end of the stream and
its block requests (42_apply.md R121 to R132). -/

namespace Sys2Proof.Machine

/-! ## The checks -/

/-- Settles O22: the first check of APPLY looks at `ST` alone. -/
theorem instanceCheckComesFirst : Obligations.InstanceCheckComesFirst := by
  unfold Obligations.InstanceCheckComesFirst
  intro dst dlen src slen s hf hr
  obtain ⟨hempty, hdead, -⟩ := exec_apply_checks dst dlen src slen hf hr
  exact ⟨hempty, hdead⟩

/-- Settles O23: on a READY instance the length check ends the command before its loop. -/
theorem unequalLengthsChangeNothing : Obligations.UnequalLengthsChangeNothing := by
  unfold Obligations.UnequalLengthsChangeNothing
  intro dst dlen src slen s hf hr
  obtain ⟨-, -, hunequal⟩ := exec_apply_checks dst dlen src slen hf hr
  exact hunequal

/-- Settles O24: the loop over no bytes makes no refill, so it is answered as the checks leave the state. -/
theorem zeroLengthApplyChangesNothing : Obligations.ZeroLengthApplyChangesNothing := by
  unfold Obligations.ZeroLengthApplyChangesNothing
  intro dst src s hf hr
  obtain ⟨hempty, hdead, -⟩ := exec_apply_checks dst 0#32 src 0#32 hf hr
  cases hst : s.st with
  | empty => exact hempty hst
  | dead => exact hdead hst
  | ready => exact exec_apply_bytes dst src 0#32 hf hr hst

/-! ## The registers and the stream position -/

/-- The six registers (10_state.md R21 to R26) are the same in both states. -/
structure State.sameRegs (s t : State) : Prop where
  key : t.key = s.key
  nonce : t.nonce = s.nonce
  counter : t.counter = s.counter
  ksblock : t.ksblock = s.ksblock
  offset : t.offset = s.offset
  st : t.st = s.st

namespace State.sameRegs

theorem refl (s : State) : s.sameRegs s := ⟨rfl, rfl, rfl, rfl, rfl, rfl⟩

theorem symm {s t : State} (h : s.sameRegs t) : t.sameRegs s :=
  ⟨h.key.symm, h.nonce.symm, h.counter.symm, h.ksblock.symm, h.offset.symm, h.st.symm⟩

theorem trans {s t u : State} (h1 : s.sameRegs t) (h2 : t.sameRegs u) : s.sameRegs u :=
  ⟨h2.key.trans h1.key, h2.nonce.trans h1.nonce, h2.counter.trans h1.counter, h2.ksblock.trans h1.ksblock,
    h2.offset.trans h1.offset, h2.st.trans h1.st⟩

theorem pos {s t : State} (h : s.sameRegs t) : t.pos = s.pos := by rw [State.pos, h.counter, h.offset, State.pos]

theorem regsLegal {s t : State} (h : s.sameRegs t) : t.regsLegal = s.regsLegal := by
  rw [State.regsLegal, h.counter, h.offset, h.st, State.regsLegal]

theorem cachedBlock {s t : State} (h : s.sameRegs t) {B : Config.BlockFn} (hc : s.cachedBlock B) : t.cachedBlock B := by
  rw [State.cachedBlock, h.counter, h.offset, h.ksblock, h.key, h.nonce]
  exact hc

end State.sameRegs

theorem accept_sameRegs (s : State) (c : Option Instr) : s.sameRegs (s.accept c) := ⟨rfl, rfl, rfl, rfl, rfl, rfl⟩

theorem respond_sameRegs (s : State) (r : Result) : s.sameRegs (s.respond r) := ⟨rfl, rfl, rfl, rfl, rfl, rfl⟩

theorem takeResponse_sameRegs (s : State) (w : Word) : s.sameRegs (s.takeResponse w) := ⟨rfl, rfl, rfl, rfl, rfl, rfl⟩

/-- Between commands, where `OFFSET` is not 0, the position says what `COUNTER` and `OFFSET` are (10_state.md R31,
42_apply.md R131). -/
theorem counter_offset_of_pos {B : Config.BlockFn} {s : State} (hc : s.cachedBlock B) (hle : s.offset.toNat ≤ 64)
    (hne : s.offset ≠ 0#7) : s.counter.toNat = (s.pos + 63) / 64 ∧ s.offset.toNat = (s.pos + 63) % 64 + 1 := by
  have hpos := pos_add_64 hc
  have hne' : s.offset.toNat ≠ 0 := fun h => hne (BitVec.eq_of_toNat_eq h)
  omega

/-- The counter says which block is cached (10_state.md R30). -/
theorem ksblock_of_counter {B : Config.BlockFn} {s t : State} (hs : s.cachedBlock B) (ht : t.cachedBlock B)
    (hkey : t.key = s.key) (hnonce : t.nonce = s.nonce) (hcounter : t.counter = s.counter) : t.ksblock = s.ksblock := by
  by_cases h0 : s.counter = 0#64
  case pos => rw [(ht.1 (hcounter.trans h0)).2, (hs.1 h0).2]
  case neg => rw [ht.2 (hcounter.symm ▸ h0), hs.2 h0, hkey, hnonce, hcounter]

/-- From `s` to `t` the instance consumes `n` bytes of its keystream: the position is `n` further and the block cached
there is held; consuming none changes no register (10_state.md R30, R31). -/
structure State.consumes (s : State) (n : Nat) (t : State) : Prop where
  key : t.key = s.key
  nonce : t.nonce = s.nonce
  st : t.st = s.st
  pos : t.pos = s.pos + n
  cached : t.cachedBlock Config.blockFn
  offset_le : t.offset.toNat ≤ 64
  unchanged : n = 0 → s.sameRegs t
  offset_ne : n ≠ 0 → t.offset ≠ 0#7

namespace State.consumes

theorem refl {s : State} (hc : s.cachedBlock Config.blockFn) (ho : s.offset.toNat ≤ 64) : s.consumes 0 s :=
  ⟨rfl, rfl, rfl, rfl, hc, ho, fun _ => .refl s, fun h => absurd rfl h⟩

theorem congr {s s' t t' : State} {n : Nat} (h : s.consumes n t) (hs : s.sameRegs s') (ht : t.sameRegs t') :
    s'.consumes n t' where
  key := by rw [ht.key, h.key, hs.key]
  nonce := by rw [ht.nonce, h.nonce, hs.nonce]
  st := by rw [ht.st, h.st, hs.st]
  pos := by rw [ht.pos, h.pos, hs.pos]
  cached := ht.cachedBlock h.cached
  offset_le := ht.offset ▸ h.offset_le
  unchanged hn := (hs.symm.trans (h.unchanged hn)).trans ht
  offset_ne hn := ht.offset ▸ h.offset_ne hn

theorem trans {s t u : State} {m n : Nat} (h1 : s.consumes m t) (h2 : t.consumes n u) : s.consumes (m + n) u where
  key := h2.key.trans h1.key
  nonce := h2.nonce.trans h1.nonce
  st := h2.st.trans h1.st
  pos := by rw [h2.pos, h1.pos, Nat.add_assoc]
  cached := h2.cached
  offset_le := h2.offset_le
  unchanged h := (h1.unchanged (by omega)).trans (h2.unchanged (by omega))
  offset_ne h := by
    by_cases hn : n = 0
    case pos => rw [(h2.unchanged hn).offset]; exact h1.offset_ne (by omega)
    case neg => exact h2.offset_ne hn

/-- Two ways to consume as many bytes end in the same registers. -/
theorem sameRegs {s t u : State} {n : Nat} (ht : s.consumes n t) (hu : s.consumes n u) : t.sameRegs u := by
  by_cases hn : n = 0
  case pos => exact (ht.unchanged hn).symm.trans (hu.unchanged hn)
  case neg =>
    have hkey := hu.key.trans ht.key.symm
    have hnonce := hu.nonce.trans ht.nonce.symm
    obtain ⟨hct, hot⟩ := counter_offset_of_pos ht.cached ht.offset_le (ht.offset_ne hn)
    obtain ⟨hcu, hou⟩ := counter_offset_of_pos hu.cached hu.offset_le (hu.offset_ne hn)
    have hpos : u.pos = t.pos := hu.pos.trans ht.pos.symm
    have hcounter : u.counter = t.counter := BitVec.eq_of_toNat_eq (by rw [hct, hcu, hpos])
    exact ⟨hkey, hnonce, hcounter, ksblock_of_counter ht.cached hu.cached hkey hnonce hcounter,
      BitVec.eq_of_toNat_eq (by rw [hot, hou, hpos]), hu.st.trans ht.st.symm⟩

/-- The closed form of the registers after at least one byte (42_apply.md R131). -/
theorem closedForm {s t : State} {n : Nat} (h : s.consumes n t) (hn : 1 ≤ n) :
    t.counter.toNat = (s.pos + n - 1) / 64 + 1 ∧ t.offset.toNat = (s.pos + n - 1) % 64 + 1 ∧
      t.ksblock = Config.blockFn s.key s.nonce (t.counter - 1#64) := by
  obtain ⟨hcounter, hoffset⟩ := counter_offset_of_pos h.cached h.offset_le (h.offset_ne (by omega))
  rw [h.pos] at hcounter hoffset
  have hne : t.counter ≠ 0#64 := fun h0 => by rw [h0, BitVec.toNat_ofNat] at hcounter; omega
  refine ⟨by omega, by omega, ?_⟩
  rw [h.cached.2 hne, h.key, h.nonce]

end State.consumes

/-- The bytes of an APPLY within the usable stream consume one keystream byte each. -/
theorem applyBytes_consumes (dst src : Word) {n : Nat} {s : State} (ho : s.offset.toNat ≤ 64)
    (hc : s.cachedBlock Config.blockFn) (hpos : s.pos + n ≤ streamCapacity) :
    s.consumes n (applyBytes Config.blockFn n dst src s).1 := by
  obtain ⟨hkey, hnonce, hst, -, -⟩ := applyBytes_frame Config.blockFn n dst src s
  obtain ⟨-, hend, hc', ho', -, hne⟩ := applyBytes_pos n dst src ho hc
  exact ⟨hkey, hnonce, hst, hend.trans (Nat.min_eq_left hpos), hc', ho', fun h => h ▸ .refl s, hne⟩

/-- Settles O25: the bytes end `L` positions further, and position and cached block fix the registers. -/
theorem applyEndState : Obligations.ApplyEndState := by
  unfold Obligations.ApplyEndState
  intro dst src len s hf hr hst hc hpos
  obtain ⟨t, rfl, hexec, hok⟩ := exec_apply_ok dst src len hf hr hst hc hpos
  obtain ⟨-, -, -, -, hhost⟩ := applyBytes_frame Config.blockFn len.toNat dst src
    (s.accept (some (.apply dst len src len)))
  have hcons := applyBytes_consumes dst src (s := s.accept (some (.apply dst len src len)))
    (offset_le_of_regsLegal hr) (cachedBlock_accept _ hc) hpos
  refine ⟨_, hexec, hok, fun hn => ?_, hcons.closedForm, hcons.pos, hcons.key, hcons.nonce, hcons.st.trans hst, hhost⟩
  have hsame := hcons.unchanged hn
  exact ⟨hsame.counter, hsame.offset, hsame.ksblock⟩

/-! ## The keystream on the destination -/

/-- Where no source byte is overwritten before it is read, each destination byte is the source byte from before XOR the
keystream byte of its position (42_apply.md R130, 20_memory.md R67, R68). -/
theorem applyBytes_xors {dst src : Word} {n : Nat} {s : State} (ho : s.offset.toNat ≤ 64)
    (hc : s.cachedBlock Config.blockFn) (hpos : s.pos + n ≤ streamCapacity) (hn : n ≤ 2 ^ 32)
    (hread : (dst - src).toNat = 0 ∨ n ≤ (dst - src).toNat) {i : Nat} (hi : i < n) :
    (applyBytes Config.blockFn n dst src s).1.byteAt (bufAddr dst i) =
      s.byteAt (bufAddr src i) ^^^ s.ks (s.pos + i) := by
  have hout := applyBytes_output (dst := dst) (src := src) hn ho hc (i := i) (by omega)
  exact hout.trans (by rw [if_pos (hread.imp_right hi.trans_le)]; rfl)

/-- Settles O26: the whole command lies within the stream, so every byte of it is one processed. -/
theorem applyXorsTheKeystream : Obligations.ApplyXorsTheKeystream := by
  unfold Obligations.ApplyXorsTheKeystream
  intro dst src len s hf hr hst hc hpos hread
  obtain ⟨t, rfl, hexec, hok⟩ := exec_apply_ok dst src len hf hr hst hc hpos
  exact ⟨_, hexec, hok, fun i => applyBytes_xors (s := s.accept (some (.apply dst len src len)))
    (offset_le_of_regsLegal hr) (cachedBlock_accept _ hc) hpos len.isLt.le hread⟩

/-! ## The transfers, and the end of the stream -/

/-- Memory accesses and block requests of the bytes of an APPLY are parts of one list of new transfers
(20_memory.md R60, 42_apply.md R132). -/
theorem applyBytes_transfers {B : Config.BlockFn} (dst src : Word) {n : Nat} {s : State} (ho : s.offset.toNat ≤ 64)
    (hc : s.cachedBlock B) (hpos : s.pos + n ≤ streamCapacity) :
    ∃ new, (applyBytes B n dst src s).1.trace.reverse = s.trace.reverse ++ new ∧
      new.filterMap Transfer.access =
        ((List.range n).flatMap fun i => [(false, bufAddr src i), (true, bufAddr dst i)]) ∧
      new.filter Transfer.isBlk =
        (List.range ((s.pos + n + 63) / 64 - s.counter.toNat)).map fun j =>
          .blk (onBus 256 s.key) (onBus 64 s.nonce) (s.counter + BitVec.ofNat 64 j)
            (onBus 512 (B s.key s.nonce (s.counter + BitVec.ofNat 64 j))) := by
  obtain ⟨new, hnew, haccess⟩ := applyBytes_accesses (dst := dst) (src := src) ho hc hpos
  obtain ⟨new', hnew', hblk⟩ := applyBytes_blocks (dst := dst) (src := src) ho hc hpos
  obtain rfl : new = new' := List.append_cancel_left (hnew.symm.trans hnew')
  exact ⟨new, hnew, haccess, hblk⟩

/-- Settles O32: the number of requests is counted on from the blocks consumed so far, `64 * COUNTER + OFFSET` bytes
being one block ahead of the position. -/
theorem applyBlockRequests : Obligations.ApplyBlockRequests := by
  unfold Obligations.ApplyBlockRequests
  intro dst src len s hf hr hst hc hpos hlen
  obtain ⟨t, rfl, hexec, hok⟩ := exec_apply_ok dst src len hf hr hst hc hpos
  have ho := offset_le_of_regsLegal hr
  obtain ⟨new, hnew, -, hblk⟩ := applyBytes_transfers dst src (s := s.accept (some (.apply dst len src len)))
    ho (cachedBlock_accept _ hc) hpos
  have h64 := pos_add_64 hc
  exact ⟨_, new, _, hexec, hok, hnew, rfl, by omega, by omega, hblk⟩

/-- An APPLY that wants more than the usable stream has processes the bytes up to its end, and is answered
CounterExhausted (42_apply.md R126). -/
theorem exec_apply_exhausted (dst src len : Word) {s : State} (hf : s.flight = none) (hr : s.regsLegal = true)
    (hst : s.st = .ready) (hc : s.cachedBlock Config.blockFn) (hpos : streamCapacity < s.pos + len.toNat) :
    ∃ t, t = (applyBytes Config.blockFn (streamCapacity - s.pos) dst src
        (s.accept (some (.apply dst len src len)))).1 ∧
      exec (.apply dst len src len) s = .next (t.raise .counterExhausted) ∧
      (t.raise .counterExhausted).answered .counterExhausted := by
  let s0 := s.accept (some (.apply dst len src len))
  have ho : s0.offset.toNat ≤ 64 := offset_le_of_regsLegal hr
  have hc0 : s0.cachedBlock Config.blockFn := cachedBlock_accept _ hc
  obtain ⟨-, -, -, hflight, -⟩ := applyBytes_frame Config.blockFn (streamCapacity - s.pos) dst src s0
  obtain ⟨hall, -⟩ := applyBytes_pos len.toNat dst src ho hc0
  have hfail : (applyBytes Config.blockFn len.toNat dst src s0).2 = false :=
    hall.trans (decide_eq_false (Nat.not_le.2 hpos))
  have hstop : (applyBytes Config.blockFn len.toNat dst src s0).1 =
      (applyBytes Config.blockFn (streamCapacity - s.pos) dst src s0).1 :=
    applyBytes_exhausted len.toNat dst src ho hc0 hpos.le
  refine ⟨_, rfl, ?_, respond_answered (s := { (applyBytes _ _ dst src s0).1 with st := .dead }) hflight _⟩
  rw [exec_apply_bytes dst src len hf hr hst, finish, if_neg (by rw [hfail]; decide), hstop]

/-- Settles O29: the command is one that just reaches the end of the stream, but for the response and `ST`. -/
theorem applyExhaustsTheCounter : Obligations.ApplyExhaustsTheCounter := by
  unfold Obligations.ApplyExhaustsTheCounter
  intro dst src len s hf hr hst hc hpos
  obtain ⟨t, ht, hexec, hanswer⟩ := exec_apply_exhausted dst src len hf hr hst hc hpos
  let s0 := s.accept (some (.apply dst len src len))
  have ho : s0.offset.toNat ≤ 64 := offset_le_of_regsLegal hr
  have hc0 : s0.cachedBlock Config.blockFn := cachedBlock_accept _ hc
  have hend : s.pos + (streamCapacity - s.pos) = streamCapacity := Nat.add_sub_of_le (pos_le_capacity ho)
  have hdone : streamCapacity - s.pos < len.toNat := Nat.sub_lt_left_of_lt_add (pos_le_capacity ho) hpos
  have hcons := applyBytes_consumes dst src ho hc0 hend.le
  obtain ⟨-, -, -, -, hhost⟩ := applyBytes_frame Config.blockFn (streamCapacity - s.pos) dst src s0
  have hout := fun i (hi : i < streamCapacity - s.pos) => applyBytes_output (dst := dst) (src := src)
    (hdone.le.trans len.isLt.le) ho hc0 (lt_min hi hi)
  have hother := fun a (ha : ∀ i, i < streamCapacity - s.pos → a ≠ bufAddr dst i) =>
    applyBytes_other (src := src) ho hc0 fun i hi => ha i (lt_min_iff.1 hi).1
  obtain ⟨new, hnew, haccess, hblk⟩ := applyBytes_transfers dst src ho hc0 hend.le
  rw [← ht] at hcons hhost hout hother hnew
  obtain ⟨hcounter, hoffset⟩ := exhausted_of_pos hcons.offset_le hcons.cached (hcons.pos.trans hend)
  have hksblock := hcons.cached.2 (by rw [hcounter]; decide)
  rw [hcounter, hcons.key, hcons.nonce] at hksblock
  have hblocks : (s.pos + (streamCapacity - s.pos) + 63) / 64 = 2 ^ 64 - 1 := by rw [hend]; rfl
  rw [show s0.pos = s.pos from rfl, hblocks] at hblk
  exact ⟨t.raise .counterExhausted, streamCapacity - s.pos, new, hexec, hanswer, rfl, hdone, rfl, hcounter, hoffset,
    hksblock, hcons.key, hcons.nonce, hhost, hout, hother, hnew, haccess, hblk⟩

end Sys2Proof.Machine

/-! Commands one after another: streaming equivalence, and APPLY as its own inverse (42_apply.md R133, R135). -/

namespace Sys2Proof.Machine

/-! ## One command that answers OK -/

/-- A sequence of commands is its first one, answered OK, then the others after the response is taken. -/
theorem runOk_cons {i : Instr} {is : List Instr} {s u : State} (h : runOk (i :: is) s = some u) :
    ∃ t, exec i s = .next t ∧ t.answered .ok ∧ runOk is (t.takeResponse Result.ok.word) = some u := by
  rw [runOk] at h
  split at h
  next t hexec =>
    split at h
    next hok => exact ⟨t, hexec, hok, h⟩
    next => cases h
  next => cases h

theorem Result.eq_ok_of_word {r : Result} (h : r.word = Result.ok.word) : r = .ok := by
  cases r with
  | ok => rfl
  | _ => exact absurd h (by decide)

theorem answered_ok_inj {s : State} {r : Result} (h : s.answered r) (hok : s.answered .ok) : r = .ok :=
  Result.eq_ok_of_word (Option.some.inj (h.symm.trans hok))

section ApplyOk
variable {dst src len : Word} {s t : State} (hc : s.cachedBlock Config.blockFn)
  (hexec : exec (.apply dst len src len) s = .next t) (hok : t.answered .ok)
include hc hexec hok

/-- APPLY answers OK only where the stream has the bytes for it, and then it has processed them all
(42_apply.md R123, R124). -/
theorem exec_apply_of_ok :
    s.offset.toNat ≤ 64 ∧ s.pos + len.toNat ≤ streamCapacity ∧
      t = (applyBytes Config.blockFn len.toNat dst src (s.accept (some (.apply dst len src len)))).1.respond .ok := by
  obtain ⟨-, hr, ⟨r, rfl, hne, -⟩ | ⟨_, _, hi, -⟩ | ⟨_, _, _, hi, -, rfl⟩⟩ := exec_cases hexec
  · exact absurd (answered_ok_inj (ended_answered s _ r) hok) hne
  · cases hi
  · cases hi
    have ho := offset_le_of_regsLegal hr
    obtain ⟨-, -, -, hflight, -⟩ := applyBytes_frame Config.blockFn len.toNat dst src
      (s.accept (some (.apply dst len src len)))
    have hall : (applyBytes Config.blockFn len.toNat dst src (s.accept (some (.apply dst len src len)))).2 = true := by
      simpa using answered_ok_inj (finish_answered hflight) hok
    obtain ⟨hwhich, -⟩ := applyBytes_pos len.toNat dst src (s := s.accept (some (.apply dst len src len))) ho
      (cachedBlock_accept _ hc)
    exact ⟨ho, of_decide_eq_true (hwhich.symm.trans hall), if_pos hall⟩

theorem apply_ok_consumes : s.consumes len.toNat t := by
  obtain ⟨ho, hpos, rfl⟩ := exec_apply_of_ok hc hexec hok
  exact (applyBytes_consumes dst src (s := s.accept _) ho (cachedBlock_accept _ hc) hpos).congr
    (accept_sameRegs s _).symm (respond_sameRegs _ _)

theorem apply_ok_outside {a : Word} (ha : inBuffer dst len a = false) : t.byteAt a = s.byteAt a := by
  obtain ⟨-, -, rfl⟩ := exec_apply_of_ok hc hexec hok
  exact applyBytes_outside _ fun i hi => ne_bufAddr_of_outside ha hi

theorem apply_ok_xors (hread : readsBeforeWrites dst src len = true) {i : Nat} (hi : i < len.toNat) :
    t.byteAt (bufAddr dst i) = s.byteAt (bufAddr src i) ^^^ s.ks (s.pos + i) := by
  obtain ⟨ho, hpos, rfl⟩ := exec_apply_of_ok hc hexec hok
  exact applyBytes_xors (s := s.accept _) ho (cachedBlock_accept _ hc) hpos len.isLt.le (of_decide_eq_true hread) hi

end ApplyOk

/-! ## Streams -/

/-- The input XOR the keystream from the position of `s` on (42_apply.md R130). -/
def State.keystreamXor (s : State) (input : List Byte) : List Byte := input.mapIdx fun i b => b ^^^ s.ks (s.pos + i)

theorem keystreamXor_congr {s t : State} (h : s.sameRegs t) (input : List Byte) :
    t.keystreamXor input = s.keystreamXor input := by
  simp only [State.keystreamXor, State.ks, h.key, h.nonce, h.pos]

/-- After `a` the keystream goes on where `a` has consumed it. -/
theorem keystreamXor_append {s t : State} {a : List Byte} (h : s.consumes a.length t) (b : List Byte) :
    s.keystreamXor (a ++ b) = s.keystreamXor a ++ t.keystreamXor b := by
  simp only [State.keystreamXor, State.ks, h.key, h.nonce, h.pos, List.mapIdx_append, Nat.add_assoc,
    Nat.add_comm a.length]

/-- A chunk that answers OK: the bytes consumed, and the output. -/
theorem runOk_chunk {c : Chunk} {s t : State} (hc : s.cachedBlock Config.blockFn)
    (hread : readsBeforeWrites c.dst c.src c.len = true) (h : runOk [c.cmd] s = some t) :
    s.consumes c.len.toNat t ∧
      t.bufferBytes c.dst c.len.toNat = s.keystreamXor (s.bufferBytes c.src c.len.toNat) := by
  obtain ⟨u, hexec, hok, hu⟩ := runOk_cons h
  cases hu
  refine ⟨(apply_ok_consumes hc hexec hok).congr (.refl s) (takeResponse_sameRegs u _), ?_⟩
  apply List.ext_getElem
  · simp [State.bufferBytes, State.keystreamXor]
  · intro i hi _
    have hi' : i < c.len.toNat := by simpa [State.bufferBytes] using hi
    simpa [State.bufferBytes, State.keystreamXor] using apply_ok_xors hc hexec hok hread hi'

theorem streamAcross_cons {m : Memory} {c : Chunk} {cs : List (Memory × Chunk)} {s u : State} {input output : List Byte}
    (h : streamAcross ((m, c) :: cs) s = some (input, output, u)) :
    ∃ t input' output', runOk [c.cmd] { s with mem := m } = some t ∧ streamAcross cs t = some (input', output', u) ∧
      input = { s with mem := m }.bufferBytes c.src c.len.toNat ++ input' ∧
      output = t.bufferBytes c.dst c.len.toNat ++ output' := by
  rw [streamAcross] at h
  split at h
  next => cases h
  next t ht =>
    split at h
    next => cases h
    next input' output' u' hrest => cases h; exact ⟨t, input', output', ht, hrest, rfl, rfl⟩

/-- Any way to cut the input gives the input XOR the keystream, and consumes as much of it as the input is long. -/
theorem streamAcross_spec {cs : List (Memory × Chunk)} {s u : State} {input output : List Byte}
    (ho : s.offset.toNat ≤ 64) (hc : s.cachedBlock Config.blockFn)
    (hread : ∀ c ∈ cs, readsBeforeWrites c.2.dst c.2.src c.2.len = true)
    (h : streamAcross cs s = some (input, output, u)) :
    output = s.keystreamXor input ∧ s.consumes input.length u := by
  induction cs generalizing s input output with
  | nil => cases h; exact ⟨rfl, .refl hc ho⟩
  | cons mc cs ih =>
    obtain ⟨m, c⟩ := mc
    obtain ⟨t, input', output', hrun, hrest, rfl, rfl⟩ := streamAcross_cons h
    obtain ⟨hchunk, hout⟩ := runOk_chunk (s := { s with mem := m }) hc (hread (m, c) List.mem_cons_self) hrun
    obtain ⟨rfl, hcons⟩ := ih hchunk.offset_le hchunk.cached (fun c' h' => hread c' (List.mem_cons_of_mem _ h')) hrest
    have hlen : ({ s with mem := m }.bufferBytes c.src c.len.toNat).length = c.len.toNat := by
      simp [State.bufferBytes]
    have hfirst : s.consumes ({ s with mem := m }.bufferBytes c.src c.len.toNat).length t := hlen.symm ▸ hchunk.congr
      (s := { s with mem := m }) ⟨rfl, rfl, rfl, rfl, rfl, rfl⟩ (.refl t)
    refine ⟨?_, by rw [List.length_append]; exact hfirst.trans hcons⟩
    rw [keystreamXor_append hfirst, hout]
    rfl

/-- Settles O35: both outputs are the one input XOR the one keystream, and as many bytes are consumed. -/
theorem streamingEquivalenceAcrossWrites : Obligations.StreamingEquivalenceAcrossWrites := by
  unfold Obligations.StreamingEquivalenceAcrossWrites
  intro s1 s2 cs1 cs2 input out1 out2 u1 u2 hr _ hc hkey hnonce hcounter hksblock hoffset hst hread1 hread2 h1 h2
  have hsame : s1.sameRegs s2 := ⟨hkey, hnonce, hcounter, hksblock, hoffset, hst⟩
  have ho := offset_le_of_regsLegal hr
  obtain ⟨rfl, hcons1⟩ := streamAcross_spec ho hc hread1 h1
  obtain ⟨rfl, hcons2⟩ := streamAcross_spec (hsame.offset ▸ ho) (hsame.cachedBlock hc) hread2 h2
  have hend := (hcons2.congr hsame.symm (.refl u2)).sameRegs hcons1
  exact ⟨(keystreamXor_congr hsame input).symm, hend.counter, hend.offset, hend.ksblock⟩

/-- Chunks with no other agent between them are chunks that each meet the memory left by the one before. -/
theorem streamAcross_of_streamChunks {cs : List Chunk} {s : State} {r : List Byte × List Byte × State}
    (h : streamChunks cs s = some r) :
    ∃ mcs : List (Memory × Chunk), mcs.map Prod.snd = cs ∧ streamAcross mcs s = some r := by
  induction cs generalizing s r with
  | nil => exact ⟨[], rfl, h⟩
  | cons c cs ih =>
    rw [streamChunks] at h
    split at h
    next => cases h
    next t ht =>
      split at h
      next => cases h
      next input output u hrest =>
        cases h
        obtain ⟨mcs, rfl, hmcs⟩ := ih hrest
        refine ⟨(s.mem, c) :: mcs, rfl, ?_⟩
        simp only [streamAcross, ht, hmcs]

/-- Settles O34, as the case of O35 in which memory between the chunks is what the chunk before has left. -/
theorem streamingEquivalence : Obligations.StreamingEquivalence := by
  unfold Obligations.StreamingEquivalence
  intro s1 s2 cs1 cs2 input out1 out2 u1 u2 hr hst hc hkey hnonce hcounter hksblock hoffset hst' hread1 hread2 h1 h2
  obtain ⟨mcs1, rfl, hacross1⟩ := streamAcross_of_streamChunks h1
  obtain ⟨mcs2, rfl, hacross2⟩ := streamAcross_of_streamChunks h2
  exact streamingEquivalenceAcrossWrites s1 s2 mcs1 mcs2 input out1 out2 u1 u2 hr hst hc hkey hnonce hcounter hksblock
    hoffset hst' (fun c h => hread1 _ (List.mem_map_of_mem h)) (fun c h => hread2 _ (List.mem_map_of_mem h))
    hacross1 hacross2

/-! ## Involution -/

/-- What NEW leaves: a fresh instance with the bytes of its buffers, and memory as before (41_new.md R112, R113). -/
theorem exec_new_spec {kaddr naddr : Word} {s t : State} (hexec : exec (.new kaddr 32#32 naddr 8#32) s = .next t) :
    (∀ j : Fin 32, t.key[j] = s.byteAt (bufAddr kaddr j.val)) ∧
      (∀ j : Fin 8, t.nonce[j] = s.byteAt (bufAddr naddr j.val)) ∧
      t.pos = 0 ∧ t.cachedBlock Config.blockFn ∧ ∀ a, t.byteAt a = s.byteAt a := by
  obtain ⟨hf, hr, -⟩ := exec_cases hexec
  obtain ⟨t', hexec', hkey, hnonce, -, hcounter, hksblock, hoffset, -, hpos, -, hmem, -⟩ :=
    newConstructsTheInstance kaddr naddr s hf hr
  obtain rfl : t' = t := next_inj (hexec.symm.trans hexec')
  exact ⟨hkey, hnonce, hpos, ⟨fun _ => ⟨hoffset, hksblock⟩, fun h => absurd hcounter h⟩,
    fun a => congrArg (Memory.read · a.toNat) hmem⟩

/-- Byte arrays loaded from bytes of memory that are the same are the same (41_new.md R112). -/
theorem loads_congr {n : Nat} {k k' : Bytes n} {base : Word} {s s' : State}
    (hk : ∀ j : Fin n, k[j] = s.byteAt (bufAddr base j.val)) (hk' : ∀ j : Fin n, k'[j] = s'.byteAt (bufAddr base j.val))
    (h : ∀ j, j < n → s'.byteAt (bufAddr base j) = s.byteAt (bufAddr base j)) : k' = k :=
  Vector.ext fun j hj => (hk' ⟨j, hj⟩).trans ((h j hj).trans (hk ⟨j, hj⟩).symm)

theorem inBuffer_bufAddr {base len : Word} {j : Nat} (hj : j < len.toNat) : inBuffer base len (bufAddr base j) = true :=
  (inBuffer_iff base len _).2 ⟨j, hj, rfl⟩

/-- Settles O36: both APPLYs start a stream of the same key and nonce at position 0, so each source byte is XORed twice
with the same keystream byte. -/
theorem applyTwiceGivesBackTheSource : Obligations.ApplyTwiceGivesBackTheSource := by
  unfold Obligations.ApplyTwiceGivesBackTheSource
  intro kaddr naddr dst1 dst2 src len s t hread1 hread2 hapart hrun i hi
  obtain ⟨t1, hnew1, -, hrun⟩ := runOk_cons hrun
  obtain ⟨t2, happly1, hok1, hrun⟩ := runOk_cons hrun
  obtain ⟨t3, hnew2, -, hrun⟩ := runOk_cons hrun
  obtain ⟨t4, happly2, hok2, hrun⟩ := runOk_cons hrun
  cases hrun
  obtain ⟨hkey1, hnonce1, hpos1, hc1, hmem1⟩ := exec_new_spec hnew1
  obtain ⟨hkey3, hnonce3, hpos3, hc3, hmem3⟩ := exec_new_spec hnew2
  have houtside : ∀ a, inBuffer dst1 len a = false → t2.byteAt a = s.byteAt a := fun a ha =>
    (apply_ok_outside (s := t1.takeResponse _) hc1 happly1 hok1 ha).trans (hmem1 a)
  have hkeep : ∀ a, (inBuffer kaddr 32#32 a = true ∨ inBuffer naddr 8#32 a = true) → t2.byteAt a = s.byteAt a := by
    intro a ha
    refine houtside a (Bool.eq_false_of_not_eq_true fun hin => ?_)
    obtain ⟨hk, hn⟩ := hapart a hin
    simp [hk, hn] at ha
  have hkey : t3.key = t1.key := loads_congr hkey1 hkey3 fun j hj => hkeep _ (.inl (inBuffer_bufAddr hj))
  have hnonce : t3.nonce = t1.nonce := loads_congr hnonce1 hnonce3 fun j hj => hkeep _ (.inr (inBuffer_bufAddr hj))
  have hks : ∀ p, t3.ks p = t1.ks p := fun p => by rw [State.ks, hkey, hnonce, State.ks]
  calc t4.byteAt (bufAddr dst2 i)
      = t3.byteAt (bufAddr dst1 i) ^^^ t3.ks (t3.pos + i) :=
        apply_ok_xors (s := t3.takeResponse _) hc3 happly2 hok2 hread2 hi
    _ = t2.byteAt (bufAddr dst1 i) ^^^ t1.ks i := by rw [hmem3, hks, hpos3, Nat.zero_add]; rfl
    _ = t1.byteAt (bufAddr src i) ^^^ t1.ks (t1.pos + i) ^^^ t1.ks i :=
        congrArg (· ^^^ t1.ks i) (apply_ok_xors (s := t1.takeResponse _) hc1 happly1 hok1 hread1 hi)
    _ = s.byteAt (bufAddr src i) := by
        rw [hpos1, Nat.zero_add, BitVec.xor_assoc, BitVec.xor_self, BitVec.xor_zero, hmem1]

end Sys2Proof.Machine

/-! A command depends on the registers, its words and the bytes it reads alone (42_apply.md R134). -/

namespace Sys2Proof.Machine

/-! ## The same work in two states -/

/-- The same work leads from `s1` to `t1` and from `s2` to `t2`: it ends in the same registers and command in flight,
with the same new transfers, and a byte of memory is the same in both or untouched in both. -/
structure State.sameWork (s1 s2 t1 t2 : State) : Prop where
  regs : t1.sameRegs t2
  flight : t2.flight = t1.flight
  trace : ∃ new, t1.trace = new ++ s1.trace ∧ t2.trace = new ++ s2.trace
  mem : ∀ a, t2.byteAt a = t1.byteAt a ∨ (t1.byteAt a = s1.byteAt a ∧ t2.byteAt a = s2.byteAt a)

namespace State.sameWork

theorem refl {s1 s2 : State} (h : s1.sameRegs s2) (hf : s2.flight = s1.flight) : s1.sameWork s2 s1 s2 :=
  ⟨h, hf, ⟨[], rfl, rfl⟩, fun _ => .inr ⟨rfl, rfl⟩⟩

/-- A byte that was the same stays so. -/
theorem byteAt_eq {s1 s2 t1 t2 : State} (h : s1.sameWork s2 t1 t2) {a : Word} (ha : s2.byteAt a = s1.byteAt a) :
    t2.byteAt a = t1.byteAt a := by
  rcases h.mem a with heq | ⟨h1, h2⟩
  · exact heq
  · rw [h1, h2, ha]

theorem trans {s1 s2 t1 t2 u1 u2 : State} (h : s1.sameWork s2 t1 t2) (h' : t1.sameWork t2 u1 u2) :
    s1.sameWork s2 u1 u2 := by
  obtain ⟨new, e1, e2⟩ := h.trace
  obtain ⟨new', e1', e2'⟩ := h'.trace
  refine ⟨h'.regs, h'.flight, ⟨new' ++ new, ?_, ?_⟩, fun a => ?_⟩
  · rw [e1', e1, List.append_assoc]
  · rw [e2', e2, List.append_assoc]
  · rcases h'.mem a with heq | ⟨hu1, hu2⟩
    · exact .inl heq
    · rw [hu1, hu2]
      exact h.mem a

theorem respond {s1 s2 t1 t2 : State} (h : s1.sameWork s2 t1 t2) (r : Result) :
    s1.sameWork s2 (t1.respond r) (t2.respond r) where
  regs := ((respond_sameRegs t1 r).symm.trans h.regs).trans (respond_sameRegs t2 r)
  flight := by rw [respond_flight, respond_flight, h.flight]
  trace := h.trace
  mem := h.mem

/-- `CounterExhausted` kills the instance, which changes `ST` alone, and is answered. -/
theorem exhaust {s1 s2 t1 t2 : State} (h : s1.sameWork s2 t1 t2) :
    s1.sameWork s2 (t1.raise .counterExhausted) (t2.raise .counterExhausted) := by
  obtain ⟨⟨hkey, hnonce, hcounter, hksblock, hoffset, -⟩, hflight, htrace, hmem⟩ := h
  have hdead : s1.sameWork s2 { t1 with st := .dead } { t2 with st := .dead } :=
    ⟨⟨hkey, hnonce, hcounter, hksblock, hoffset, rfl⟩, hflight, htrace, hmem⟩
  exact hdead.respond .counterExhausted

end State.sameWork

/-! ## The operations of a command -/

theorem refill_eq_self (B : Config.BlockFn) {s : State} (h : s.offset ≠ 64#7) : s.refill B = some s :=
  if_neg (by simp [State.pbbExhausted, h])

theorem refill_eq_gen (B : Config.BlockFn) {s : State} (h : s.offset = 64#7) : s.refill B = s.gen B :=
  if_pos (decide_eq_true h)

section Operations
variable {s1 s2 : State} (h : s1.sameRegs s2) (hf : s2.flight = s1.flight)
include h

theorem ended_sameWork (c : Option Instr) (r : Result) : s1.sameWork s2 (s1.ended c r) (s2.ended c r) :=
  ⟨⟨h.key, h.nonce, h.counter, h.ksblock, h.offset, h.st⟩, rfl, ⟨[], rfl, rfl⟩, fun _ => .inr ⟨rfl, rfl⟩⟩

theorem accept_sameWork (c : Option Instr) : s1.sameWork s2 (s1.accept c) (s2.accept c) :=
  ⟨⟨h.key, h.nonce, h.counter, h.ksblock, h.offset, h.st⟩, rfl, ⟨[], rfl, rfl⟩, fun _ => .inr ⟨rfl, rfl⟩⟩

include hf

/-- A refill looks at the registers alone. -/
theorem refill_sameWork (B : Config.BlockFn) :
    (s1.refill B = none ∧ s2.refill B = none) ∨
      ∃ t1 t2, s1.refill B = some t1 ∧ s2.refill B = some t2 ∧ s1.sameWork s2 t1 t2 := by
  by_cases h64 : s1.offset = 64#7
  case neg =>
    have h64' : s2.offset ≠ 64#7 := h.offset ▸ h64
    exact .inr ⟨s1, s2, refill_eq_self B h64, refill_eq_self B h64', .refl h hf⟩
  case pos =>
    rw [refill_eq_gen B h64, refill_eq_gen B (h.offset.trans h64)]
    by_cases hmax : s1.counter = Config.counterMax
    case pos => exact .inl ⟨gen_exhausted B s1 hmax, gen_exhausted B s2 (h.counter.trans hmax)⟩
    case neg =>
      have hmax' : s2.counter ≠ Config.counterMax := h.counter ▸ hmax
      refine .inr ⟨_, _, gen_eq B s1 hmax, gen_eq B s2 hmax', ?_⟩
      rw [h.key, h.nonce, h.counter]
      exact ⟨⟨rfl, rfl, rfl, rfl, rfl, h.st⟩, hf, ⟨[_], rfl, rfl⟩, fun _ => .inr ⟨rfl, rfl⟩⟩

/-- One byte reads the source byte and the registers alone. -/
theorem xorByte_sameWork {dst src : Word} (hread : s2.byteAt src = s1.byteAt src) :
    s1.sameWork s2 (s1.xorByte dst src) (s2.xorByte dst src) := by
  have hks : s2.ksNext = s1.ksNext := by rw [State.ksNext, h.ksblock, h.offset, State.ksNext]
  refine ⟨⟨h.key, h.nonce, h.counter, h.ksblock, congrArg (· + 1#7) h.offset, h.st⟩, hf, ⟨[_, _], rfl, ?_⟩, fun a => ?_⟩
  · rw [State.xorByte_trace, hread, hks]; rfl
  · by_cases ha : a = dst
    case pos => left; rw [ha, State.byteAt_xorByte_same, State.byteAt_xorByte_same, hread, hks]
    case neg => exact .inr ⟨State.byteAt_xorByte_other _ _ ha, State.byteAt_xorByte_other _ _ ha⟩

end Operations

/-- The construction reads the key and nonce bytes alone. -/
theorem construct_sameWork {s1 s2 : State} (hf : s2.flight = s1.flight) {kaddr naddr : Word}
    (hk : ∀ j, j < 32 → s2.byteAt (bufAddr kaddr j) = s1.byteAt (bufAddr kaddr j))
    (hn : ∀ j, j < 8 → s2.byteAt (bufAddr naddr j) = s1.byteAt (bufAddr naddr j)) :
    s1.sameWork s2 (s1.construct kaddr naddr) (s2.construct kaddr naddr) := by
  obtain ⟨key1, nonce1, e1, hkey1, hnonce1⟩ := construct_eq s1 kaddr naddr
  obtain ⟨key2, nonce2, e2, hkey2, hnonce2⟩ := construct_eq s2 kaddr naddr
  have hloadKey : (List.range 32).map (fun j => Transfer.memRead (bufAddr kaddr j) (s2.byteAt (bufAddr kaddr j))) =
      (List.range 32).map fun j => .memRead (bufAddr kaddr j) (s1.byteAt (bufAddr kaddr j)) :=
    List.map_congr_left fun j hj => by rw [hk j (List.mem_range.1 hj)]
  have hloadNonce : (List.range 8).map (fun j => Transfer.memRead (bufAddr naddr j) (s2.byteAt (bufAddr naddr j))) =
      (List.range 8).map fun j => .memRead (bufAddr naddr j) (s1.byteAt (bufAddr naddr j)) :=
    List.map_congr_left fun j hj => by rw [hn j (List.mem_range.1 hj)]
  rw [e1, e2, hloadKey, hloadNonce, loads_congr hkey1 hkey2 hk, loads_congr hnonce1 hnonce2 hn]
  exact ⟨⟨rfl, rfl, rfl, rfl, rfl, rfl⟩, hf, ⟨_ ++ _, (List.append_assoc ..).symm, (List.append_assoc ..).symm⟩,
    fun _ => .inr ⟨rfl, rfl⟩⟩

/-- The bytes of an APPLY read the source bytes and the registers alone; a source byte that the command has overwritten
is the same in both states. -/
theorem applyBytes_sameWork (B : Config.BlockFn) (n : Nat) (dst src : Word) {s1 s2 : State} (h : s1.sameRegs s2)
    (hf : s2.flight = s1.flight) (hread : ∀ i, i < n → s2.byteAt (bufAddr src i) = s1.byteAt (bufAddr src i)) :
    s1.sameWork s2 (applyBytes B n dst src s1).1 (applyBytes B n dst src s2).1 ∧
      (applyBytes B n dst src s2).2 = (applyBytes B n dst src s1).2 := by
  induction n generalizing dst src s1 s2 with
  | zero => exact ⟨.refl h hf, rfl⟩
  | succ n ih =>
    rcases refill_sameWork h hf B with ⟨e1, e2⟩ | ⟨t1, t2, e1, e2, hrefill⟩ <;> simp only [applyBytes, e1, e2]
    · exact ⟨.refl h hf, trivial⟩
    · have hfirst : t2.byteAt src = t1.byteAt src :=
        hrefill.byteAt_eq (by simpa using hread 0 (Nat.succ_pos n))
      have hbyte := hrefill.trans (xorByte_sameWork hrefill.regs hrefill.flight (dst := dst) hfirst)
      obtain ⟨hrest, hall⟩ := ih (dst + 1#32) (src + 1#32) hbyte.regs hbyte.flight fun i hi =>
        hbyte.byteAt_eq (by rw [bufAddr_succ]; exact hread (i + 1) (Nat.succ_lt_succ hi))
      exact ⟨hbyte.trans hrest, hall⟩

theorem finish_sameWork {s1 s2 : State} {r1 r2 : State × Bool} (h : s1.sameWork s2 r1.1 r2.1) (hall : r2.2 = r1.2) :
    s1.sameWork s2 (finish r1) (finish r2) := by
  rw [finish, finish, hall]
  split
  · exact h.respond .ok
  · exact h.exhaust

/-! ## Whole commands -/

section Command
variable {s1 s2 : State} (hf1 : s1.flight = none) (hf2 : s2.flight = none) (hr : s1.regsLegal = true)
  (h : s1.sameRegs s2)
include hf1 hf2 hr h

theorem exec_new_sameWork (kaddr klen naddr nlen : Word)
    (hread : ∀ a, cmdReads (.new kaddr klen naddr nlen) a = true → s2.byteAt a = s1.byteAt a) :
    ∃ t1 t2, exec (.new kaddr klen naddr nlen) s1 = .next t1 ∧ exec (.new kaddr klen naddr nlen) s2 = .next t2 ∧
      s1.sameWork s2 t1 t2 := by
  have hr2 : s2.regsLegal = true := h.regsLegal.trans hr
  cases hv : newLengthsValid klen nlen with
  | false => exact ⟨_, _, exec_new_invalid hf1 hr hv, exec_new_invalid hf2 hr2 hv, ended_sameWork h _ _⟩
  | true =>
    obtain ⟨rfl, rfl⟩ := (newLengthsValid_iff klen nlen).1 hv
    have haccept := accept_sameWork h (some (.new kaddr 32#32 naddr 8#32))
    refine ⟨_, _, exec_new_valid hf1 hr, exec_new_valid hf2 hr2,
      (haccept.trans (construct_sameWork haccept.flight (fun j hj => ?_) fun j hj => ?_)).respond .ok⟩
    · exact hread _ (by rw [cmdReads, inBuffer_bufAddr hj, Bool.true_or])
    · exact hread _ (by rw [cmdReads, inBuffer_bufAddr hj, Bool.or_true])

theorem exec_apply_sameWork (dst dlen src slen : Word)
    (hread : ∀ a, cmdReads (.apply dst dlen src slen) a = true → s2.byteAt a = s1.byteAt a) :
    ∃ t1 t2, exec (.apply dst dlen src slen) s1 = .next t1 ∧ exec (.apply dst dlen src slen) s2 = .next t2 ∧
      s1.sameWork s2 t1 t2 := by
  have hr2 : s2.regsLegal = true := h.regsLegal.trans hr
  obtain ⟨hempty1, hdead1, hunequal1⟩ := exec_apply_checks dst dlen src slen hf1 hr
  obtain ⟨hempty2, hdead2, hunequal2⟩ := exec_apply_checks dst dlen src slen hf2 hr2
  rw [h.st] at hempty2 hdead2 hunequal2
  cases hst : s1.st with
  | empty => exact ⟨_, _, hempty1 hst, hempty2 hst, ended_sameWork h _ _⟩
  | dead => exact ⟨_, _, hdead1 hst, hdead2 hst, ended_sameWork h _ _⟩
  | ready =>
    by_cases hl : dlen = slen
    case neg => exact ⟨_, _, hunequal1 hst hl, hunequal2 hst hl, ended_sameWork h _ _⟩
    case pos =>
      subst hl
      have haccept := accept_sameWork h (some (.apply dst dlen src dlen))
      obtain ⟨hbytes, hall⟩ := applyBytes_sameWork Config.blockFn dlen.toNat dst src haccept.regs haccept.flight
        fun i hi => hread _ (inBuffer_bufAddr hi)
      exact ⟨_, _, exec_apply_bytes dst src dlen hf1 hr hst, exec_apply_bytes dst src dlen hf2 hr2 (h.st.trans hst),
        finish_sameWork (haccept.trans hbytes) hall⟩

end Command

/-- Settles O37: both commands make the same passes through their checks and bytes. -/
theorem commandsDependOnlyOnWhatTheyRead : Obligations.CommandsDependOnlyOnWhatTheyRead := by
  unfold Obligations.CommandsDependOnlyOnWhatTheyRead
  intro i s1 s2 hf1 hf2 hr hkey hnonce hcounter hksblock hoffset hst hread
  have h : s1.sameRegs s2 := ⟨hkey, hnonce, hcounter, hksblock, hoffset, hst⟩
  obtain ⟨t1, t2, hexec1, hexec2, hregs, hflight, ⟨new, hnew1, hnew2⟩, hmem⟩ :
      ∃ t1 t2, exec i s1 = .next t1 ∧ exec i s2 = .next t2 ∧ s1.sameWork s2 t1 t2 := by
    cases i with
    | new kaddr klen naddr nlen => exact exec_new_sameWork hf1 hf2 hr h kaddr klen naddr nlen hread
    | apply dst dlen src slen => exact exec_apply_sameWork hf1 hf2 hr h dst dlen src slen hread
  exact ⟨t1, t2, new, hexec1, hexec2, hregs.key, hregs.nonce, hregs.counter, hregs.ksblock, hregs.offset, hregs.st,
    hflight, hnew1, hnew2, hmem⟩

end Sys2Proof.Machine

/-! Errors are precise, an illegal packet is one of them, and an idle machine keeps its state (60_exceptions.md R150,
R154, R157, R158, R163). -/

namespace Sys2Proof.Machine

/-! ## Illegal packets and the idle machine -/

/-- An illegal packet run whole is answered and changes nothing (30_encoding.md R76, R77). -/
theorem execIllegal_ready {s : State} (hf : s.flight = none) (hr : s.regsLegal = true) :
    execIllegal s = .next (s.ended none .illegalCommand) :=
  (runCommand_ready none _ hf hr).trans (congrArg _ (accept_raise s none .illegalCommand (by simp)))

/-- A ready port takes the illegal packet the host sends, and answers it whole. -/
theorem step_send_illegal {s : State} {p : Packet} {rest : List HostAction} {r : Illegal} (hf : s.flight = none)
    (hh : s.host = .send p :: rest) (hd : decode p = .illegal r) :
    step s = execIllegal ((s.withHost rest).log (.cmd p)) := by
  simp [step, hh, State.cmdReady, hf, hd]

/-- Settles O8: by its header word the packet decodes to no command, so the step answers it whole. -/
theorem illegalPacketIsAnswered : Obligations.IllegalPacketIsAnswered := by
  unfold Obligations.IllegalPacketIsAnswered
  intro s p rest hh hf hr hnew happly
  obtain ⟨r, hd⟩ := (decode_illegal_iff p).1 ⟨hnew, happly⟩
  exact (step_send_illegal hf hh hd).trans (execIllegal_ready (s := (s.withHost rest).log (.cmd p)) hf hr)

theorem advance_idle (B : Config.BlockFn) {s : State} (hf : s.flight = none) : advance B s = .next s := by
  rw [advance, hf]

/-- Settles O15: with nothing from the host the step is SCKM's own act, and with no command in flight that is none. -/
theorem idleHoldsTheState : Obligations.IdleHoldsTheState := by
  unfold Obligations.IdleHoldsTheState
  intro s hh hf
  have hown : step s = advance Config.blockFn s := by rw [step, hh]
  exact hown.trans (advance_idle _ hf)

/-! ## Failed commands -/

/-- Past its checks a command answers OK, or kills the instance with CounterExhausted (60_exceptions.md R153). -/
theorem finish_outcome {r : State × Bool} {f : Flight} (hf : r.1.flight = some f) :
    (finish r).answered .ok ∨ (finish r).answered .counterExhausted ∧ (finish r).st = .dead := by
  have hanswer := finish_answered hf
  have hst := finish_st r
  cases hall : r.2 with
  | true => rw [hall] at hanswer; exact .inl hanswer
  | false => rw [hall] at hanswer hst; exact .inr ⟨hanswer, hst⟩

/-- Settles O38: a command ends at its checks with nothing changed, or constructs and answers OK, or processes bytes,
and those fail only by the counter of a READY instance. -/
theorem failedCommandsChangeNothing : Obligations.FailedCommandsChangeNothing := by
  unfold Obligations.FailedCommandsChangeNothing
  intro i s hf hr
  obtain ⟨t, hexec⟩ := exec_next i hf hr
  obtain ⟨-, -, hcases⟩ := exec_cases hexec
  rcases hcases with ⟨r, rfl, -, -⟩ | ⟨kaddr, naddr, -, rfl⟩ | ⟨dst, src, len, -, hst, rfl⟩
  · exact ⟨_, r, hexec, ended_answered .., .inr (.inl rfl)⟩
  · exact ⟨_, .ok, hexec, respond_answered (constructFrom_flight ..) _, .inl rfl⟩
  · obtain ⟨-, -, -, hflight, -⟩ := applyBytes_frame Config.blockFn len.toNat dst src (s.accept (some i))
    rcases finish_outcome hflight with hok | ⟨hexhausted, hdead⟩
    · exact ⟨_, .ok, hexec, hok, .inl rfl⟩
    · exact ⟨_, .counterExhausted, hexec, hexhausted, .inr (.inr ⟨rfl, hst, hdead⟩)⟩

end Sys2Proof.Machine

/-! RESET, whatever is in flight (70_reset_and_hazards.md R180 to R182). -/

namespace Sys2Proof.Machine

/-- RESET waits for no port: the step is the reset itself, whatever command is in flight (70_reset_and_hazards.md
R181). -/
theorem step_reset {s : State} {rest : List HostAction} (hh : s.host = .reset :: rest) :
    step s = .next (s.withHost rest).hardReset := by
  rw [step, hh]

theorem cmdReady_of_idle {s : State} (hf : s.flight = none) : s.cmdReady = true := by
  rw [State.cmdReady, hf, Option.isNone_none]

theorem rspData_of_idle {s : State} (hf : s.flight = none) : s.rspData = none := by
  rw [State.rspData, hf]

/-- Settles O10: the step is the reset; it leaves no command in flight, so both ports are at rest, and its frame is
memory, the acts to come and the trace below the RESET record. -/
theorem resetAbandonsTheCommand : Obligations.ResetAbandonsTheCommand := by
  unfold Obligations.ResetAbandonsTheCommand
  intro s rest hh
  have hidle : (s.withHost rest).hardReset.flight = none := State.hardReset_flight _
  refine ⟨_, step_reset hh, ?key, ?nonce, ?counter, ?ksblock, ?offset, ?st, cmdReady_of_idle hidle,
    rspData_of_idle hidle, ?mem, ?host, ?trace⟩
  case key => exact State.hardReset_key _
  case nonce => exact State.hardReset_nonce _
  case counter => exact State.hardReset_counter _
  case ksblock => exact State.hardReset_ksblock _
  case offset => exact State.hardReset_offset _
  case st => exact State.hardReset_st _
  case mem => rw [State.hardReset_mem, State.withHost_mem]
  case host => rw [State.hardReset_host, State.withHost_host]
  case trace => rw [State.hardReset_trace, State.withHost_trace]

end Sys2Proof.Machine
